-- ==== Sys2Proof/Word.lean ====
section
/-! DEFINITION. The word types of the FROSTBYTE CORE (spec/00_scope.md R11, R17). -/

namespace Sys2Proof

/-- A register, data cell, port register, PC value or call-stack entry: 16 bits (R11 `XLEN`, R17). -/
abbrev Word := BitVec 16

/-- An instruction word: 32 bits (R11 `ILEN`). -/
abbrev InstrWord := BitVec 32

/-- A register index, `REG_BITS` = 5 (R11). -/
abbrev RegIx := BitVec 5

/-- A port number, `PORT_BITS` = 3 (R11). -/
abbrev PortIx := BitVec 3

/-- The jump and branch address field, `ADDR_BITS` = 11 (R11). -/
abbrev Addr := BitVec 11

/-- The LD and ST offset field, `OFF_BITS` = 8 (R11). -/
abbrev Offset := BitVec 8

/-- The ADI immediate field, `IMM_BITS` = 16 (R11). -/
abbrev Imm := BitVec 16

/-- A marquee character code, five bits (spec/10_state.md R45). -/
abbrev CharCode := BitVec 5

/-- A screen coordinate as the pending latches hold it, five bits (spec/10_state.md R44). -/
abbrev Coord := BitVec 5

/-- A line of text or of a binary image: its characters in order (spec/30_encoding.md R114, R118). -/
abbrev Line := List Char

/-- A token of an assembly line (spec/30_encoding.md R121). -/
abbrev Token := List Char

end Sys2Proof
end

