-- ==== Sys2Proof/Config.lean ====
section
/-! DEFINITION. The implementation parameters and the free values of the FROSTBYTE CORE
(spec/00_scope.md R11, R12, R19). The opaque constants have no body: a claim about them holds for every value. -/

namespace Sys2Proof

/-- Which half of the port-3 word is X (spec/00_scope.md R12 `XY_LAYOUT`). -/
inductive XYLayout where
  | xHigh
  | xLow
deriving DecidableEq, Repr, Inhabited

/-- The order of the two marquee actions of one port-0 write that asks for both (spec/43_ports.md R231). -/
inductive MarqueeOrder where
  | commitFirst
  | clearFirst
deriving DecidableEq, Repr, Inhabited

/-- The three legal flag states by name (spec/10_state.md R38). -/
inductive FlagClass where
  | z
  | n
  | p
deriving DecidableEq, Repr, Inhabited

namespace Config

/-- `STACK_DEPTH` (spec/00_scope.md R11). -/
def stackDepth : Nat := 16

/-- `IMEM_MAX`, the largest program in words (spec/00_scope.md R11). -/
def imemMax : Nat := 2048

/-- `DMEM`, the number of data cells (spec/00_scope.md R11). -/
def dataCells : Nat := 256

/-- The parameter `XY_LAYOUT`, fixed for the machine and left open by the spec (R12, D20; log 5).
DESIGN CHOICE, safe: nothing can be proved of its value. -/
opaque xyLayout : XYLayout

/-- The `n`-th draw of the noise source (spec/10_state.md R41, D28; log 2).
DESIGN CHOICE, safe: no law relates two draws. -/
opaque randDraw : Nat → Word

/-- The flag state a reset that is the `n`-th draw takes (spec/10_state.md R38, D5; log 3).
DESIGN CHOICE, safe: any of the three legal states. -/
opaque resetFlagsDraw : Nat → FlagClass

/-- The order a port-0 write with both bits set takes, when it is the `n`-th draw
(spec/43_ports.md R231, D21; log 4). DESIGN CHOICE, safe: either order. -/
opaque marqueeOrderDraw : Nat → MarqueeOrder

end Config

end Sys2Proof
end

