-- ==== Sys2Proof/Syntax.lean ====
section
/-! DEFINITION. The decoded instruction: one constructor per row of spec/opcode_table.json, each carrying its
operand fields (spec/00_scope.md R9, spec/30_encoding.md R101 to R111). -/

namespace Sys2Proof

/-- A decoded instruction. A field's width is the width of its field in the encoding, so no value of this type
holds a register above 31, a port above 7, an offset above 255 or an address above 2047 (R115). -/
inductive Instr where
  | nop
  | add (rd rs1 rs2 : RegIx)
  | sub (rd rs1 rs2 : RegIx)
  | xor (rd rs1 rs2 : RegIx)
  | or (rd rs1 rs2 : RegIx)
  | and (rd rs1 rs2 : RegIx)
  | rsh (rd rs : RegIx)
  | adi (rd rs : RegIx) (imm : Imm)
  | st (rv rb : RegIx) (off : Offset)
  | ld (rd rb : RegIx) (off : Offset)
  | ptSt (rv : RegIx) (port : PortIx)
  | ptLd (rd : RegIx) (port : PortIx)
  | jmp (addr : Addr)
  | cal (addr : Addr)
  | ret
  | beq (addr : Addr)
  | bne (addr : Addr)
  | blt (addr : Addr)
  | bgt (addr : Addr)
  | hlt
deriving DecidableEq, Repr

end Sys2Proof
end

