-- ==== Sys2Proof/WellFormed.lean ====
section
/-! DEFINITION. What makes an instruction well formed before its fields have a width: the formats, the opcodes,
their operand shapes (spec/30_encoding.md R101 to R110, R131 to R133), the checks on operands, and the check on a
program image (R114). A value of `Instr` needs no further check: its field types are the encoding's widths. -/

namespace Sys2Proof

/-- The nine instruction formats (spec/30_encoding.md R101 to R109). -/
inductive Format where
  | N
  | R3
  | R2
  | I
  | S
  | L
  | PS
  | PL
  | J
deriving DecidableEq, Repr

/-- The twenty opcodes (spec/30_encoding.md R110). -/
inductive Opcode where
  | nop
  | add
  | sub
  | xor
  | or
  | and
  | rsh
  | adi
  | st
  | ld
  | ptSt
  | ptLd
  | jmp
  | cal
  | ret
  | beq
  | bne
  | blt
  | bgt
  | hlt
deriving DecidableEq, Repr

/-- The kinds of operand a mnemonic asks for (spec/30_encoding.md R133). -/
inductive OperandKind where
  | reg
  | port
  | imm16
  | off8
  | addr11
deriving DecidableEq, Repr

/-- An operand token as it reads, before its range is checked (spec/30_encoding.md R131).
`other` is a token that is no register, port or number, a `Dn` token among them (R119). -/
inductive Operand where
  | reg (n : Nat)
  | port (n : Nat)
  | num (n : Nat)
  | other
deriving DecidableEq, Repr

/-- The operand shape of each mnemonic, in source order (R133). -/
def Opcode.shape : Opcode → List OperandKind
  | .nop | .ret | .hlt => []
  | .add | .sub | .xor | .or | .and => [.reg, .reg, .reg]
  | .rsh => [.reg, .reg]
  | .adi => [.reg, .reg, .imm16]
  | .st | .ld => [.reg, .reg, .off8]
  | .ptSt | .ptLd => [.reg, .port]
  | .jmp | .cal | .beq | .bne | .blt | .bgt => [.addr11]

/-- How many values an operand kind admits, from 0 up (R131). -/
def OperandKind.bound : OperandKind → Nat
  | .reg => 32
  | .port => 8
  | .imm16 => 65536
  | .off8 => 256
  | .addr11 => 2048

/-- The operand is of the kind asked for and its value fits the field (R131, R132). -/
def Operand.fits (k : OperandKind) (o : Operand) : Bool :=
  match k, o with
  | .reg, .reg n => n < k.bound
  | .port, .port n => n < k.bound
  | .imm16, .num n => n < k.bound
  | .off8, .num n => n < k.bound
  | .addr11, .num n => n < k.bound
  | _, _ => false

/-- An opcode with operands that the assembler admits: as many as its shape, each fitting its place
(R131 to R133). -/
def wellFormedOperands (op : Opcode) (os : List Operand) : Bool :=
  os.length == op.shape.length && (List.zipWith Operand.fits op.shape os).all id

/-- A line of the binary program format: exactly 32 characters, each `0` or `1` (R114). -/
def wellFormedImageLine (l : Line) : Bool :=
  l.length == 32 && l.all (fun c => c == '0' || c == '1')

/-- A binary program the loader takes: well-formed lines, at most 2048 of them (R114). -/
def wellFormedImage (ls : List Line) : Bool :=
  ls.all wellFormedImageLine && ls.length ≤ Config.imemMax

end Sys2Proof
end

