-- ==== Sys2Proof/Decode.lean ====
section
/-! DEFINITION. Binary decode, total on 32-bit words and rejecting by name (spec/30_encoding.md R110 to R113), and
after it the encoder (R101 to R109, R140, R141). -/

namespace Sys2Proof

/-- The two decode faults of a binary word (spec/30_encoding.md R111 to R113, the spec's decision D3). -/
inductive DecodeFault where
  | unknownOpcode (w : InstrWord)
  | reservedBitsSet (w : InstrWord)
deriving DecidableEq, Repr

/-- The format of each opcode (R110). -/
def Opcode.format : Opcode → Format
  | .nop | .ret | .hlt => .N
  | .add | .sub | .xor | .or | .and => .R3
  | .rsh => .R2
  | .adi => .I
  | .st => .S
  | .ld => .L
  | .ptSt => .PS
  | .ptLd => .PL
  | .jmp | .cal | .beq | .bne | .blt | .bgt => .J

/-- The opcode of an instruction. -/
def Instr.opcode : Instr → Opcode
  | .nop => .nop
  | .add _ _ _ => .add
  | .sub _ _ _ => .sub
  | .xor _ _ _ => .xor
  | .or _ _ _ => .or
  | .and _ _ _ => .and
  | .rsh _ _ => .rsh
  | .adi _ _ _ => .adi
  | .st _ _ _ => .st
  | .ld _ _ _ => .ld
  | .ptSt _ _ => .ptSt
  | .ptLd _ _ => .ptLd
  | .jmp _ => .jmp
  | .cal _ => .cal
  | .ret => .ret
  | .beq _ => .beq
  | .bne _ => .bne
  | .blt _ => .blt
  | .bgt _ => .bgt
  | .hlt => .hlt

/-- The opcode map (R110). -/
def Opcode.code : Opcode → BitVec 5
  | .nop => 0b00000
  | .add => 0b00001
  | .sub => 0b00010
  | .xor => 0b00011
  | .or => 0b00100
  | .and => 0b00101
  | .rsh => 0b00110
  | .adi => 0b00111
  | .st => 0b01000
  | .ld => 0b01001
  | .ptSt => 0b01010
  | .ptLd => 0b01011
  | .jmp => 0b01100
  | .cal => 0b01101
  | .ret => 0b01110
  | .beq => 0b01111
  | .bne => 0b10000
  | .blt => 0b10001
  | .bgt => 0b10010
  | .hlt => 0b10011

/-- All opcodes, in the order of their codes (R110). -/
def Opcode.all : List Opcode :=
  [.nop, .add, .sub, .xor, .or, .and, .rsh, .adi, .st, .ld,
   .ptSt, .ptLd, .jmp, .cal, .ret, .beq, .bne, .blt, .bgt, .hlt]

/-- The opcode a 5-bit code names; codes 20 to 31 name none (R110, R112). -/
def Opcode.ofCode? (c : BitVec 5) : Option Opcode := Opcode.all[c.toNat]?

/-- The bits of a word that a format fixes: its opcode and every zero field (the mask column of R110). -/
def Format.mask : Format → InstrWord
  | .N => 0xFFFFFFFF
  | .R3 => 0xFFF0001F
  | .R2 => 0xFFFF801F
  | .I => 0x8000001F
  | .S => 0xF00003FF
  | .L => 0xF0007C1F
  | .PS => 0xFFFC03FF
  | .PL => 0xFFE3FC1F
  | .J => 0xFFFF001F

/-- The value of the fixed bits: the opcode, and zero elsewhere (the match column of R110). -/
def Opcode.matchWord (op : Opcode) : InstrWord := op.code.setWidth 32

/-- The field of `w` that starts at bit `lo` and has `n` bits, read unsigned (spec/00_scope.md R16, R115). -/
def field (w : InstrWord) (lo n : Nat) : BitVec n := w.extractLsb' lo n

/-- The instruction of opcode `op` with its fields read from `w` at the positions of R101 to R109. -/
def instrOf (op : Opcode) (w : InstrWord) : Instr :=
  match op with
  | .nop => .nop
  | .add => .add (field w 5 5) (field w 10 5) (field w 15 5)
  | .sub => .sub (field w 5 5) (field w 10 5) (field w 15 5)
  | .xor => .xor (field w 5 5) (field w 10 5) (field w 15 5)
  | .or => .or (field w 5 5) (field w 10 5) (field w 15 5)
  | .and => .and (field w 5 5) (field w 10 5) (field w 15 5)
  | .rsh => .rsh (field w 5 5) (field w 10 5)
  | .adi => .adi (field w 5 5) (field w 10 5) (field w 15 16)
  | .st => .st (field w 10 5) (field w 15 5) (field w 20 8)
  | .ld => .ld (field w 5 5) (field w 15 5) (field w 20 8)
  | .ptSt => .ptSt (field w 10 5) (field w 15 3)
  | .ptLd => .ptLd (field w 5 5) (field w 18 3)
  | .jmp => .jmp (field w 5 11)
  | .cal => .cal (field w 5 11)
  | .ret => .ret
  | .beq => .beq (field w 5 11)
  | .bne => .bne (field w 5 11)
  | .blt => .blt (field w 5 11)
  | .bgt => .bgt (field w 5 11)
  | .hlt => .hlt

/-- Binary decode (R111): an unknown opcode first, then a one in a zero field, then the instruction. -/
def decode (w : InstrWord) : Except DecodeFault Instr :=
  match Opcode.ofCode? (field w 0 5) with
  | none => .error (.unknownOpcode w)
  | some op =>
    if w &&& op.format.mask = op.matchWord then .ok (instrOf op w) else .error (.reservedBitsSet w)

/-- The instruction the decoder reads from the `nbits` low bits of `w`, bit 0 the least significant. -/
def decodeTableWord (nbits w : Nat) : Option Instr :=
  match decode (BitVec.ofNat 32 (w % 2 ^ nbits)) with
  | .ok i => some i
  | .error _ => none

/-- A field's value at the position whose lowest bit is `lo`; every other bit is 0 (R140). -/
def place {n : Nat} (v : BitVec n) (lo : Nat) : InstrWord := v.setWidth 32 <<< lo

/-- Format N (R101). -/
def encodeN (op : BitVec 5) : InstrWord := place op 0

/-- Format R3 (R102). -/
def encodeR3 (op : BitVec 5) (rd rs1 rs2 : RegIx) : InstrWord :=
  place rs2 15 ||| place rs1 10 ||| place rd 5 ||| place op 0

/-- Format R2 (R103). -/
def encodeR2 (op : BitVec 5) (rd rs : RegIx) : InstrWord := place rs 10 ||| place rd 5 ||| place op 0

/-- Format I (R104). -/
def encodeI (op : BitVec 5) (rd rs : RegIx) (imm : Imm) : InstrWord :=
  place imm 15 ||| place rs 10 ||| place rd 5 ||| place op 0

/-- Format S (R105). -/
def encodeS (op : BitVec 5) (rv rb : RegIx) (off : Offset) : InstrWord :=
  place off 20 ||| place rb 15 ||| place rv 10 ||| place op 0

/-- Format L (R106). -/
def encodeL (op : BitVec 5) (rd rb : RegIx) (off : Offset) : InstrWord :=
  place off 20 ||| place rb 15 ||| place rd 5 ||| place op 0

/-- Format PS: the port at bits 17..15 (R107). -/
def encodePS (op : BitVec 5) (rv : RegIx) (port : PortIx) : InstrWord :=
  place port 15 ||| place rv 10 ||| place op 0

/-- Format PL: the port at bits 20..18 (R108). -/
def encodePL (op : BitVec 5) (rd : RegIx) (port : PortIx) : InstrWord :=
  place port 18 ||| place rd 5 ||| place op 0

/-- Format J (R109). -/
def encodeJ (op : BitVec 5) (addr : Addr) : InstrWord := place addr 5 ||| place op 0

/-- The encoder: the word of an instruction (R140, R141). -/
def encode (i : Instr) : InstrWord :=
  let c := i.opcode.code
  match i with
  | .nop => encodeN c
  | .add rd rs1 rs2 => encodeR3 c rd rs1 rs2
  | .sub rd rs1 rs2 => encodeR3 c rd rs1 rs2
  | .xor rd rs1 rs2 => encodeR3 c rd rs1 rs2
  | .or rd rs1 rs2 => encodeR3 c rd rs1 rs2
  | .and rd rs1 rs2 => encodeR3 c rd rs1 rs2
  | .rsh rd rs => encodeR2 c rd rs
  | .adi rd rs imm => encodeI c rd rs imm
  | .st rv rb off => encodeS c rv rb off
  | .ld rd rb off => encodeL c rd rb off
  | .ptSt rv port => encodePS c rv port
  | .ptLd rd port => encodePL c rd port
  | .jmp addr => encodeJ c addr
  | .cal addr => encodeJ c addr
  | .ret => encodeN c
  | .beq addr => encodeJ c addr
  | .bne addr => encodeJ c addr
  | .blt addr => encodeJ c addr
  | .bgt addr => encodeJ c addr
  | .hlt => encodeN c

/-- The 32 characters of a word, most significant bit first (R114, R140). -/
def wordLine (w : InstrWord) : Line :=
  (List.range 32).map (fun k => if w.getLsbD (31 - k) then '1' else '0')

/-- The encoder's output for an instruction: the 32-character string of its format (R140). -/
def encodeLine (i : Instr) : Line := wordLine (encode i)

/-- The word a binary image line stands for, the first character its bit 31 (R114); the line's form is
checked by `wellFormedImageLine`. -/
def lineWord (l : Line) : InstrWord :=
  BitVec.ofNat 32 (l.foldl (fun n c => 2 * n + (if c = '1' then 1 else 0)) 0)

end Sys2Proof
end

