-- ==== Sys2Proof/Machine/State.lean ====
section
/-! DEFINITION. The state of the machine as plain data (spec/10_state.md R30 to R53), the reasons a step can stop,
and the state after reset. -/

namespace Sys2Proof.Machine

/-- Data memory: the cells that do not hold 0, as (cell index, value), indices strictly rising. A cell that is not
listed reads 0, the reset value of spec/10_state.md R52. The unit is the 16-bit cell, the smallest the hardware
addresses (spec/20_memory.md R71, R74; log 1). -/
abbrev Memory := List (Nat × Word)

/-- The four flags (spec/10_state.md R37). -/
structure Flags where
  beq : Bool
  bne : Bool
  blt : Bool
  bgt : Bool
deriving DecidableEq, Repr

/-- A 31 x 31 pixel array, rows first (spec/10_state.md R43). -/
abbrev Screen := Vector (Vector Bool 31) 31

/-- Eleven marquee codes (spec/10_state.md R45). -/
abbrev Marquee := Vector CharCode 11

/-- What the numeric display shows (spec/10_state.md R46). -/
inductive NumShown where
  | blank
  | shown (v : Int)
deriving DecidableEq, Repr

/-- The controller: four held and four momentary buttons (spec/10_state.md R47). -/
structure Buttons where
  up : Bool
  right : Bool
  down : Bool
  left : Bool
  select : Bool
  start : Bool
  y : Bool
  x : Bool
deriving DecidableEq, Repr

/-- The run states of the host's scheduler (spec/10_state.md R51). -/
inductive RunState where
  | idle
  | running
  | halted
deriving DecidableEq, Repr

/-- What a completed step reports to the host (spec/00_scope.md R13: Completed, Halted, ScreenError). -/
inductive Report where
  | completed
  | halted
  | screenError (x y : Coord)
deriving DecidableEq, Repr

/-- The whole state: the machine state of spec/10_state.md R53, the program (R48), the host-side run state (R51)
and two fields of the model's own, `report` (log 7) and `drawCount` (log 6). -/
structure State where
  /-- R0 to R31 (R30). -/
  x : Vector Word 32
  /-- D0 to D255 (R49). -/
  dmem : Memory
  /-- The program counter, an instruction index (R33). -/
  pc : Word
  /-- BEQ, BNE, BLT, BGT (R37). -/
  flags : Flags
  /-- The call stack, most recent last (R40). -/
  cs : List Word
  /-- The write-port registers WP[0..7] (R42). -/
  wp : Vector Word 8
  /-- The value of read port 1 (R41). -/
  rand : Word
  /-- The back pixel buffer (R43). -/
  pixBack : Screen
  /-- The front pixel buffer (R43). -/
  pixFront : Screen
  /-- The pending pixel value (R44). -/
  pixLatch : Bool
  /-- The pending X coordinate (R44). -/
  penX : Coord
  /-- The pending Y coordinate (R44). -/
  penY : Coord
  /-- The marquee staging buffer (R45). -/
  mqStage : Marquee
  /-- The committed marquee string (R45). -/
  mqShown : Marquee
  /-- The marquee write cursor, 0 to 10 (R45). -/
  mqCursor : Fin 11
  /-- The numeric display value (R46). -/
  numShown : NumShown
  /-- The unmasked debug value of the numeric display (R46). -/
  numDebug : Word
  /-- The controller snapshot (R47). -/
  buttons : Buttons
  /-- The instruction memory; its length is `PROG_LEN` (R48). -/
  imem : List InstrWord
  /-- The preprocessed source of the loaded program (spec/00_scope.md R14; log 13). -/
  source : List Line
  /-- The scheduler's run state (R51). -/
  runState : RunState
  /-- The scheduler's cancellation flag (R51). -/
  stopRequested : Bool
  /-- The scheduler's speed (R51; log 12). -/
  speed : Nat
  /-- The model's own: what the last completed step reported (log 7). -/
  report : Report
  /-- The model's own: the index of the next draw (log 6). -/
  drawCount : Nat
deriving DecidableEq, Repr

/-- Why a step stops. Each leaves the state as it was before the step (spec/60_exceptions.md R284; log 14). -/
inductive Fault where
  /-- Raised by the fetch when `pc >= PROG_LEN` (spec/40_cycle_system.md R171): the spec's outcome `Overrun`. Safe. -/
  | overrun (pc : Word)
  /-- Raised by decode for opcodes 20 to 31 (spec/30_encoding.md R112, decision D3). Safe. -/
  | unknownOpcode (w : InstrWord)
  /-- Raised by decode for a one in a must-be-zero bit (spec/30_encoding.md R113, decision D3). Safe. -/
  | reservedBitsSet (w : InstrWord)
  /-- Raised by ST and LD for an effective address above 255 (spec/20_memory.md R72, decision D6). Safe. -/
  | dataAddressFault (ea : Nat)
  /-- Raised by RET on an empty call stack (spec/44_control.md R262, decision D7). Safe. -/
  | callStackUnderflow (pc : Word)
deriving DecidableEq, Repr

/-- Why the model gives an instruction no meaning. Every opcode of the table has its meaning, so nothing raises one. -/
inductive Refusal where
  /-- Raised by an arm of `exec` whose instruction has no meaning yet; no arm is one. Safe. -/
  | notModelled (mnemonic : String)
deriving DecidableEq, Repr

/-- The flags of a named legal state (spec/10_state.md R38). -/
def Flags.ofClass : FlagClass → Flags
  | .z => ⟨true, false, false, false⟩
  | .n => ⟨false, true, true, false⟩
  | .p => ⟨false, true, false, true⟩

/-- A 31 x 31 array of one pixel value. -/
def Screen.fill (b : Bool) : Screen := Vector.replicate 31 (Vector.replicate 31 b)

/-- Eleven spaces (code 0). -/
def Marquee.blank : Marquee := Vector.replicate 11 0#5

/-- Every button released. -/
def Buttons.released : Buttons := ⟨false, false, false, false, false, false, false, false⟩

/-- The reset state of spec/10_state.md R52 with its two draws as arguments (spec/70_reset_and_hazards.md R323),
around the program and the host's speed, which reset keeps (R325; log 12). -/
def State.fresh (flags : FlagClass) (rand : Word) (drawCount : Nat) (imem : List InstrWord) (source : List Line)
    (speed : Nat) : State where
  x := Vector.replicate 32 0#16
  dmem := []
  pc := 0#16
  flags := Flags.ofClass flags
  cs := []
  wp := Vector.replicate 8 0#16
  rand := rand
  pixBack := Screen.fill false
  pixFront := Screen.fill false
  pixLatch := false
  penX := 0#5
  penY := 0#5
  mqStage := Marquee.blank
  mqShown := Marquee.blank
  mqCursor := 0
  numShown := .blank
  numDebug := 0#16
  buttons := Buttons.released
  imem := imem
  source := source
  runState := .idle
  stopRequested := false
  speed := speed
  report := .completed
  drawCount := drawCount

/-- The machine right after its first reset, before any program is loaded (spec/70_reset_and_hazards.md R326;
logs 2, 3, 6, 7, 8, 12, 13). -/
def State.reset : State := State.fresh (Config.resetFlagsDraw 0) (Config.randDraw 0) 1 [] [] 0

end Sys2Proof.Machine
end

