-- ==== Sys2Proof/Machine/Flags.lean ====
section
/-! DEFINITION. The flag computation (spec/41_alu.md R190) and the legal flag states (spec/10_state.md R38). -/

namespace Sys2Proof.Machine

/-- `deriveFlags(r)` (spec/41_alu.md R190). -/
def deriveFlags (r : Word) : Flags :=
  let blt := r.getLsbD 15
  let beq := decide (r = 0#16)
  { beq := beq, bne := !beq, blt := blt, bgt := !beq && !blt }

/-- The flag state is one of Z, N and P (spec/10_state.md R38). -/
def Flags.legal (f : Flags) : Bool :=
  f == Flags.ofClass .z || f == Flags.ofClass .n || f == Flags.ofClass .p

end Sys2Proof.Machine
end

