-- ==== Sys2Proof/Machine/Operands.lean ====
section
/-! DEFINITION. The operand forms: the effective address, the address field as a PC value, and the bit fields the
ports take from a value (spec/20_memory.md R71, spec/30_encoding.md R115, spec/43_ports.md). -/

namespace Sys2Proof.Machine

/-- The effective address of ST and LD, base plus unsigned offset, not reduced (spec/20_memory.md R71). -/
def effectiveAddress (base : Word) (off : Offset) : Nat := base.toNat + off.toNat

/-- `zext_16(addr)`: a jump target as a PC value (spec/30_encoding.md R115, spec/44_control.md R267). -/
def targetOf (addr : Addr) : Word := addr.setWidth 16

/-- Bit `i` of a 16-bit value (spec/00_scope.md R16). -/
def bitOf (v : Word) (i : Nat) : Bool := v.getLsbD i

/-- The character code of a port-1 write, `v[4:0]` (spec/43_ports.md R232). -/
def charCodeOf (v : Word) : CharCode := v.extractLsb' 0 5

/-- The pending X of a port-3 write under a layout (spec/43_ports.md R235). -/
def penXOf (l : XYLayout) (v : Word) : Coord :=
  match l with
  | .xHigh => v.extractLsb' 5 5
  | .xLow => v.extractLsb' 0 5

/-- The pending Y of a port-3 write under a layout (spec/43_ports.md R235). -/
def penYOf (l : XYLayout) (v : Word) : Coord :=
  match l with
  | .xHigh => v.extractLsb' 0 5
  | .xLow => v.extractLsb' 5 5

/-- The number a port-2 write shows: the magnitude `v[7:0]`, read as 8-bit two's complement when the sign-mode bit
`v[9]` is set (spec/43_ports.md R233, R234). -/
def magnitudeOf (v : Word) : Int :=
  let mag : Int := ((v.extractLsb' 0 8).toNat : Int)
  if bitOf v 9 && decide (128 ≤ mag) then mag - 256 else mag

/-- What a port-2 write puts on the numeric display: blank when the enable bit `v[8]` is clear
(spec/43_ports.md R233). -/
def numShownOf (v : Word) : NumShown := if bitOf v 8 then .shown (magnitudeOf v) else .blank

/-- The controller packing, least significant bit first Up, Right, Down, Left, Select, Start, Y, X, with bits 15..8
clear (spec/43_ports.md R241). -/
def packButtons (b : Buttons) : Word :=
  BitVec.ofNat 16
    (b.up.toNat * 1 + b.right.toNat * 2 + b.down.toNat * 4 + b.left.toNat * 8 + b.select.toNat * 16 +
      b.start.toNat * 32 + b.y.toNat * 64 + b.x.toNat * 128)

/-- The controller after its momentary buttons are consumed (spec/43_ports.md R241). -/
def releaseMomentary (b : Buttons) : Buttons :=
  { b with select := false, start := false, y := false, x := false }

end Sys2Proof.Machine
end

