-- ==== Sys2Proof/Machine/Ops.lean ====
section
/-! DEFINITION. The named operations over registers, memory, the call stack, the ports' latches and the program
counter, the fetch, the completion every executed instruction ends with (spec/40_cycle_system.md R175), and the
raising of a fault (R173, spec/60_exceptions.md R284). -/

namespace Sys2Proof.Machine

/-- The three outcomes of a meaning, over this machine's reasons. -/
abbrev Result := Host.Outcome State Fault Refusal

/-! Data memory. -/

/-- `MemRead(a, 1)`: a cell that is not listed holds 0 (spec/00_scope.md R18, spec/10_state.md R49, R52). -/
def Memory.read : Memory → Nat → Word
  | [], _ => 0#16
  | (b, v) :: m, a => if b = a then v else Memory.read m a

/-- Put a cell into a list in rising order. -/
def Memory.insert : Memory → Nat → Word → Memory
  | [], a, v => [(a, v)]
  | (b, w) :: m, a, v => if a < b then (a, v) :: (b, w) :: m else (b, w) :: Memory.insert m a v

/-- `MemWrite(a, 1, v)`: the cell's old entry goes, and a value other than 0 is listed
(spec/00_scope.md R18). -/
def Memory.write (m : Memory) (a : Nat) (v : Word) : Memory :=
  let rest := m.filter (fun c => c.1 ≠ a)
  if v = 0#16 then rest else Memory.insert rest a v

/-- Indices strictly rise from `lo` on, and no listed value is 0. -/
def Memory.risingFrom : Nat → Memory → Bool
  | _, [] => true
  | lo, (a, v) :: m => decide (lo ≤ a) && decide (v ≠ 0#16) && Memory.risingFrom (a + 1) m

/-- The canonical form: strictly rising indices below 256, no entry that holds 0 (log 1). -/
def Memory.wf (m : Memory) : Bool :=
  Memory.risingFrom 0 m && m.all (fun c => decide (c.1 < Config.dataCells))

/-! Registers. -/

/-- `x[i]` (spec/00_scope.md R18). -/
def State.readReg (s : State) (i : RegIx) : Word := s.x[i.toNat]'i.isLt

/-- `x[i] <- v` (spec/00_scope.md R18); R0 is cleared at completion, not here (spec/10_state.md R31). -/
def State.writeReg (s : State) (i : RegIx) (v : Word) : State := { s with x := s.x.set i.toNat v i.isLt }

/-- `flags <- f`. -/
def State.setFlags (s : State) (f : Flags) : State := { s with flags := f }

/-- Data cell `a` of the state. -/
def State.readCell (s : State) (a : Nat) : Word := Memory.read s.dmem a

/-- Write data cell `a`; D0 is cleared at completion, not here (spec/10_state.md R49). -/
def State.writeCell (s : State) (a : Nat) (v : Word) : State := { s with dmem := Memory.write s.dmem a v }

/-! The call stack (spec/10_state.md R40). -/

/-- The most recent 16 entries (spec/40_cycle_system.md R175, R177 `last16`; log 20). -/
def last16 (cs : List Word) : List Word := cs.drop (cs.length - Config.stackDepth)

/-- `push(v)`: the most recent entry is the last. -/
def State.push (s : State) (v : Word) : State := { s with cs := s.cs ++ [v] }

/-- The entry `pop()` returns, if there is one. -/
def State.top? (s : State) : Option Word := s.cs.getLast?

/-- The state after `pop()`. -/
def State.dropTop (s : State) : State := { s with cs := s.cs.dropLast }

/-! The ports' own state (spec/43_ports.md R221 to R239, R241). -/

/-- `WP[n] <- v` (R221). -/
def State.writeWP (s : State) (n : PortIx) (v : Word) : State := { s with wp := s.wp.set n.toNat v n.isLt }

/-- `WP[n]`. -/
def State.readWP (s : State) (n : PortIx) : Word := s.wp[n.toNat]'n.isLt

/-- `mqShown <- mqStage` (R230). -/
def State.commitMarquee (s : State) : State := { s with mqShown := s.mqStage }

/-- Blank the staging buffer and send its cursor home (R230). -/
def State.clearMarquee (s : State) : State := { s with mqStage := Marquee.blank, mqCursor := 0 }

/-- The cursor after one character: from 10 back to 0 (R232). -/
def nextCursor (c : Fin 11) : Fin 11 := if c = 10 then 0 else c + 1

/-- Store a code at the cursor and advance it (R232). -/
def State.appendMarquee (s : State) (c : CharCode) : State :=
  { s with mqStage := s.mqStage.set s.mqCursor.val c s.mqCursor.isLt, mqCursor := nextCursor s.mqCursor }

/-- Set the numeric display and its debug value (R233). -/
def State.showNumber (s : State) (v : Word) : State := { s with numShown := numShownOf v, numDebug := v }

/-- Set the pending coordinates (R235). -/
def State.setPen (s : State) (px py : Coord) : State := { s with penX := px, penY := py }

/-- Set the pixel latch (R237). -/
def State.setLatch (s : State) (b : Bool) : State := { s with pixLatch := b }

/-- One pixel of a screen; `false` outside 0 to 30, where there is none (spec/10_state.md R43). -/
def Screen.pixel (p : Screen) (row col : Nat) : Bool :=
  if h : row < 31 ∧ col < 31 then (p[row]'h.1)[col]'h.2 else false

/-- Set one pixel of a screen; outside 0 to 30 there is none to set. -/
def Screen.setPixel (p : Screen) (row col : Nat) (b : Bool) : Screen :=
  if h : row < 31 ∧ col < 31 then p.set row ((p[row]'h.1).set col b h.2) h.1 else p

/-- The pending coordinates are in 1 to 31 (R236). -/
def State.penInRange (s : State) : Bool :=
  decide (1 ≤ s.penX.toNat ∧ s.penX.toNat ≤ 31 ∧ 1 ≤ s.penY.toNat ∧ s.penY.toNat ≤ 31)

/-- Put the latch into the back buffer at row `31 - penY`, column `31 - penX` (R236). -/
def State.drawPixel (s : State) : State :=
  { s with pixBack := s.pixBack.setPixel (31 - s.penY.toNat) (31 - s.penX.toNat) s.pixLatch }

/-- Fill the back buffer with the latch (R238). -/
def State.fillBack (s : State) : State := { s with pixBack := Screen.fill s.pixLatch }

/-- Copy the back buffer to the front buffer (R239). -/
def State.commitScreen (s : State) : State := { s with pixFront := s.pixBack }

/-- Clear the momentary buttons (R241). -/
def State.consumeButtons (s : State) : State := { s with buttons := releaseMomentary s.buttons }

/-! Fetch, completion and faults. -/

/-- The word at PC, if PC is below `PROG_LEN` (spec/40_cycle_system.md R171). -/
def fetch (s : State) : Option InstrWord := s.imem[s.pc.toNat]?

/-- The fault a binary decode fault ends the step with (spec/40_cycle_system.md R172). -/
def Fault.ofDecode : DecodeFault → Fault
  | .unknownOpcode w => .unknownOpcode w
  | .reservedBitsSet w => .reservedBitsSet w

/-- What an instruction does to PC (spec/40_cycle_system.md R173). -/
inductive PcAction where
  | next
  | jump (t : Word)
  | stay
deriving DecidableEq, Repr

/-- PC after an action (spec/40_cycle_system.md R175 action 4). -/
def PcAction.apply (a : PcAction) (pc : Word) : Word :=
  match a with
  | .next => pc + 1#16
  | .jump t => t
  | .stay => pc

/-- Completion action 1: a new draw on read port 1 (R175). -/
def State.reroll (s : State) : State :=
  { s with rand := Config.randDraw s.drawCount, drawCount := s.drawCount + 1 }

/-- Completion action 2: R0 and D0 back to zero (R175). -/
def State.forceZeros (s : State) : State := (s.writeReg 0#5 0#16).writeCell 0 0#16

/-- Completion action 3: the call stack cut to its most recent 16 entries (R175). -/
def State.cutStack (s : State) : State := { s with cs := last16 s.cs }

/-- Completion action 4: the PC action (R175). -/
def State.movePc (s : State) (a : PcAction) : State := { s with pc := a.apply s.pc }

/-- What the step reports (spec/40_cycle_system.md R176; log 7). -/
def State.setReport (s : State) (r : Report) : State := { s with report := r }

/-- The completion every executed instruction ends with (spec/40_cycle_system.md R175, R176, R177). -/
def State.complete (s : State) (a : PcAction) (r : Report) : State :=
  (((s.reroll.forceZeros).cutStack).movePc a).setReport r

/-- An instruction that ran: its own effect, then the completion. -/
def finish (s : State) (a : PcAction) (r : Report) : Result := .next (s.complete a r)

/-- `raise Fault(kind, info)`: every write of the instruction is discarded, no completion runs, control does not move
and nothing is saved (spec/00_scope.md R18, spec/40_cycle_system.md R173, spec/60_exceptions.md R281, R284). The block
has no exception entry and so no return from one (R286, R290). -/
def raise (f : Fault) : Result := .fault f

end Sys2Proof.Machine
end

