-- ==== Sys2Proof/Machine/Alu.lean ====
section
/-! DEFINITION. The ALU-class instructions (spec/41_alu.md R191 to R199). -/

namespace Sys2Proof.Machine

/-- What every ALU-class instruction does with its result: the destination, all four flags, then `Next` (R191). -/
def aluResult (s : State) (rd : RegIx) (r : Word) : Result :=
  finish ((s.writeReg rd r).setFlags (deriveFlags r)) .next .completed

/-- ADD (R192). -/
def execAdd (rd rs1 rs2 : RegIx) (s : State) : Result := aluResult s rd (s.readReg rs1 + s.readReg rs2)

/-- SUB (R193). -/
def execSub (rd rs1 rs2 : RegIx) (s : State) : Result := aluResult s rd (s.readReg rs1 - s.readReg rs2)

/-- XOR (R194). -/
def execXor (rd rs1 rs2 : RegIx) (s : State) : Result := aluResult s rd (s.readReg rs1 ^^^ s.readReg rs2)

/-- OR (R195). -/
def execOr (rd rs1 rs2 : RegIx) (s : State) : Result := aluResult s rd (s.readReg rs1 ||| s.readReg rs2)

/-- AND (R196). -/
def execAnd (rd rs1 rs2 : RegIx) (s : State) : Result := aluResult s rd (s.readReg rs1 &&& s.readReg rs2)

/-- RSH: logical, by one (R197). -/
def execRsh (rd rs : RegIx) (s : State) : Result := aluResult s rd (s.readReg rs >>> 1)

/-- ADI (R198). -/
def execAdi (rd rs : RegIx) (imm : Imm) (s : State) : Result := aluResult s rd (s.readReg rs + imm)

end Sys2Proof.Machine
end

