-- ==== Sys2Proof/Machine/Control.lean ====
section
/-! DEFINITION. JMP, CAL, RET and the conditional branches (spec/44_control.md R260 to R267). -/

namespace Sys2Proof.Machine

/-- A branch on a flag: to the target when it is set, else to the next instruction (R263 to R266, and the spec's
decision D4 for the branch not taken). -/
def branchIf (taken : Bool) (addr : Addr) (s : State) : Result :=
  finish s (if taken then .jump (targetOf addr) else .next) .completed

/-- JMP (R260). -/
def execJmp (addr : Addr) (s : State) : Result := finish s (.jump (targetOf addr)) .completed

/-- CAL: push the index of the next instruction, then jump (R261). -/
def execCal (addr : Addr) (s : State) : Result :=
  finish (s.push (s.pc + 1#16)) (.jump (targetOf addr)) .completed

/-- RET: jump to the popped address; an empty stack faults (R262). -/
def execRet (s : State) : Result :=
  match s.top? with
  | none => raise (.callStackUnderflow s.pc)
  | some t => finish s.dropTop (.jump t) .completed

/-- BEQ (R263). -/
def execBeq (addr : Addr) (s : State) : Result := branchIf s.flags.beq addr s

/-- BNE (R264). -/
def execBne (addr : Addr) (s : State) : Result := branchIf s.flags.bne addr s

/-- BLT (R265). -/
def execBlt (addr : Addr) (s : State) : Result := branchIf s.flags.blt addr s

/-- BGT (R266). -/
def execBgt (addr : Addr) (s : State) : Result := branchIf s.flags.bgt addr s

end Sys2Proof.Machine
end

