-- ==== Sys2Proof/Machine/LoadStore.lean ====
section
/-! DEFINITION. ST and LD (spec/42_load_store.md R210, R211). -/

namespace Sys2Proof.Machine

/-- Run `k` on the effective address if it names a cell, else fault (spec/20_memory.md R71, R72). -/
def withCell (s : State) (rb : RegIx) (off : Offset) (k : Nat → Result) : Result :=
  let ea := effectiveAddress (s.readReg rb) off
  if ea < Config.dataCells then k ea else raise (.dataAddressFault ea)

/-- ST (R210). -/
def execSt (rv rb : RegIx) (off : Offset) (s : State) : Result :=
  withCell s rb off (fun ea => finish (s.writeCell ea (s.readReg rv)) .next .completed)

/-- LD (R211). -/
def execLd (rd rb : RegIx) (off : Offset) (s : State) : Result :=
  withCell s rb off (fun ea => finish (s.writeReg rd (s.readCell ea)) .next .completed)

end Sys2Proof.Machine
end

