-- ==== Sys2Proof/Machine/Ports.lean ====
section
/-! DEFINITION. The port devices, PT-ST and PT-LD (spec/43_ports.md R220 to R245). -/

namespace Sys2Proof.Machine

/-- Port 0 with both bits set, in the order drawn (R231). -/
def marqueeBoth (o : MarqueeOrder) (s : State) : State :=
  match o with
  | .commitFirst => s.commitMarquee.clearMarquee
  | .clearFirst => s.clearMarquee.commitMarquee

/-- Port 0, marquee control (R230, R231); the order draw is the one at the state's draw index (log 4). -/
def writeMarqueeControl (v : Word) (s : State) : State :=
  match bitOf v 15, bitOf v 14 with
  | true, true => marqueeBoth (Config.marqueeOrderDraw s.drawCount) s
  | true, false => s.commitMarquee
  | false, true => s.clearMarquee
  | false, false => s

/-- Port 4, draw one pixel: out of range, the pixel is dropped and reported (R236). -/
def writeDraw (s : State) : State × Report :=
  if s.penInRange then (s.drawPixel, .completed) else (s, .screenError s.penX s.penY)

/-- The action of a write port (R230 to R239). -/
def portAction (n : PortIx) (v : Word) (s : State) : State × Report :=
  match n.toNat with
  | 0 => (writeMarqueeControl v s, .completed)
  | 1 => (s.appendMarquee (charCodeOf v), .completed)
  | 2 => (s.showNumber v, .completed)
  | 3 => (s.setPen (penXOf Config.xyLayout v) (penYOf Config.xyLayout v), .completed)
  | 4 => writeDraw s
  | 5 => (s.setLatch (bitOf v 0), .completed)
  | 6 => (s.fillBack, .completed)
  | _ => (s.commitScreen, .completed)

/-- `PortWrite(n, v)`: the register first, then the action (R221). -/
def portWrite (n : PortIx) (v : Word) (s : State) : State × Report := portAction n v (s.writeWP n v)

/-- `PortRead(n)`: the value, and the state after the read (R240 to R243). -/
def portRead (n : PortIx) (s : State) : Word × State :=
  match n.toNat with
  | 0 => (packButtons s.buttons, s.consumeButtons)
  | 1 => (s.rand, s)
  | _ => (0#16, s)

/-- PT-ST (R220). -/
def execPtSt (rv : RegIx) (n : PortIx) (s : State) : Result :=
  finish (portWrite n (s.readReg rv) s).1 .next (portWrite n (s.readReg rv) s).2

/-- PT-LD (R245). -/
def execPtLd (rd : RegIx) (n : PortIx) (s : State) : Result :=
  finish ((portRead n s).2.writeReg rd (portRead n s).1) .next .completed

end Sys2Proof.Machine
end

