-- ==== Sys2Proof/Machine/System.lean ====
section
/-! DEFINITION. NOP and HLT (spec/40_cycle_system.md R180 to R182). -/

namespace Sys2Proof.Machine

/-- NOP (R180). -/
def execNop (s : State) : Result := finish s .next .completed

/-- Tell the run scheduler that HLT was executed (R182; log 10). That HLT "clears the flag itself" is read as
the run leaving Running; `stopRequested` stays as it was: DESIGN CHOICE, unsafe (log 28). -/
def State.haltRun (s : State) : State := { s with runState := .halted }

/-- HLT: PC stays, the run state becomes Halted, the step reports Halted (R181, R182). -/
def execHlt (s : State) : Result := finish s.haltRun .stay .halted

end Sys2Proof.Machine
end

