-- ==== Sys2Proof/Machine/Dispatch.lean ====
section
/-! DEFINITION. One arm per constructor of Instr, each a direct call of that instruction's meaning
(spec/40_cycle_system.md R173). -/

namespace Sys2Proof.Machine

def exec (i : Instr) (s : State) : Host.Outcome State Fault Refusal :=
  match i with
  | .nop => Sys2Proof.Machine.execNop s
  | .add rd rs1 rs2 => Sys2Proof.Machine.execAdd rd rs1 rs2 s
  | .sub rd rs1 rs2 => Sys2Proof.Machine.execSub rd rs1 rs2 s
  | .xor rd rs1 rs2 => Sys2Proof.Machine.execXor rd rs1 rs2 s
  | .or rd rs1 rs2 => Sys2Proof.Machine.execOr rd rs1 rs2 s
  | .and rd rs1 rs2 => Sys2Proof.Machine.execAnd rd rs1 rs2 s
  | .rsh rd rs => Sys2Proof.Machine.execRsh rd rs s
  | .adi rd rs imm => Sys2Proof.Machine.execAdi rd rs imm s
  | .st rv rb off => Sys2Proof.Machine.execSt rv rb off s
  | .ld rd rb off => Sys2Proof.Machine.execLd rd rb off s
  | .ptSt rv port => Sys2Proof.Machine.execPtSt rv port s
  | .ptLd rd port => Sys2Proof.Machine.execPtLd rd port s
  | .jmp addr => Sys2Proof.Machine.execJmp addr s
  | .cal addr => Sys2Proof.Machine.execCal addr s
  | .ret => Sys2Proof.Machine.execRet s
  | .beq addr => Sys2Proof.Machine.execBeq addr s
  | .bne addr => Sys2Proof.Machine.execBne addr s
  | .blt addr => Sys2Proof.Machine.execBlt addr s
  | .bgt addr => Sys2Proof.Machine.execBgt addr s
  | .hlt => Sys2Proof.Machine.execHlt s

end Sys2Proof.Machine
end

