-- ==== Sys2Proof/Machine/Step.lean ====
section
/-! DEFINITION. One step: fetch, decode, execute with its completion (spec/40_cycle_system.md R170 to R177). -/

namespace Sys2Proof.Machine

/-- `step` of spec/40_cycle_system.md R177, its draws taken from `Config` at the state's draw index. A fault leaves
the state as it was (R171, R172, spec/60_exceptions.md R284). -/
def step (s : State) : Host.Outcome State Fault Refusal :=
  match fetch s with
  | none => raise (.overrun s.pc)
  | some w =>
    match decode w with
    | .error e => raise (Fault.ofDecode e)
    | .ok i => exec i s

/-- The program with the word `w` at index `k`, zero words filling what lies below it (log 9). -/
def placeWord (imem : List InstrWord) (k : Nat) (w : InstrWord) : List InstrWord :=
  (imem ++ List.replicate (k + 1 - imem.length) 0#32).set k w

/-- `s` with the `nbits` low bits of `w` as the instruction word at PC; it stands for the host's load (log 8). -/
def State.withFetchWord (s : State) (nbits w : Nat) : State :=
  { s with imem := placeWord s.imem s.pc.toNat (BitVec.ofNat 32 (w % 2 ^ nbits)) }

end Sys2Proof.Machine
end

