-- ==== Sys2Proof/Machine/Preprocess.lean ====
section
/-! DEFINITION. The seven-stage preprocessor from assembly lines to flat instruction lines
(spec/30_encoding.md R118 to R130). It touches no machine state (R129). -/

namespace Sys2Proof.Machine

/-- The preprocessor's errors with the line, as its stage reads it, and the token where one is at fault
(spec/60_exceptions.md R280; log 16). -/
inductive PreprocessError where
  | malformedDefine (line : Line)
  | duplicateDefine (line : Line)
  | duplicateLabel (line : Line)
  | unresolvedLabel (line : Line) (token : Token)
  | characterLiteral (line : Line) (token : Token)
deriving DecidableEq, Repr

/-- Where the tokenizer stands: between tokens, in a bare token, in a quoted group. -/
inductive ScanMode where
  | between
  | bare
  | quoted
deriving DecidableEq, Repr

/-- Whitespace is space and tab (R121). -/
def isBlankChar (c : Char) : Bool := c == ' ' || c == Char.ofNat 9

/-- The double quote. -/
def quoteChar : Char := Char.ofNat 34

/-- The tokenizer (R121): `acc` holds the characters of the open token, last first. A quoted group ends at its
closing quote (log 15) or with the line. -/
def scanTokens : ScanMode → List Char → List Char → List Token
  | .between, _, [] => []
  | .bare, acc, [] => [acc.reverse]
  | .quoted, acc, [] => [acc.reverse]
  | .between, _, c :: cs =>
    if isBlankChar c then scanTokens .between [] cs
    else if c = quoteChar then scanTokens .quoted [c] cs
    else scanTokens .bare [c] cs
  | .bare, acc, c :: cs =>
    if isBlankChar c then acc.reverse :: scanTokens .between [] cs else scanTokens .bare (c :: acc) cs
  | .quoted, acc, c :: cs =>
    if c = quoteChar then (c :: acc).reverse :: scanTokens .between [] cs else scanTokens .quoted (c :: acc) cs

/-- The tokens of a line (R121). -/
def tokenize (l : Line) : List Token := scanTokens .between [] l

/-- A line written back: its tokens joined by single spaces (R121). -/
def joinTokens (ts : List Token) : Line := List.intercalate [' '] ts

/-- Empty, or only whitespace (R122). -/
def isBlankLine (l : Line) : Bool := l.all isBlankChar

/-- Stage 1: strip blank lines (R122). -/
def stripBlank (ls : List Line) : List Line := ls.filter (fun l => !isBlankLine l)

/-- Stage 2: strip from the first `#` on, and drop lines that become blank (R123). -/
def stripComments (ls : List Line) : List Line := stripBlank (ls.map (fun l => l.takeWhile (fun c => c != '#')))

/-- The value of a name in a list of pairs. -/
def lookupName {α : Type} (t : Token) : List (Token × α) → Option α
  | [] => none
  | (n, v) :: ps => if n = t then some v else lookupName t ps

/-- Stage 3: gather the definitions and remove their lines (R124). -/
def extractDefines (defs : List (Token × Token)) :
    List Line → Except PreprocessError (List (Token × Token) × List Line)
  | [] => .ok (defs, [])
  | l :: ls =>
    match tokenize l with
    | [] => extractDefines defs ls
    | t :: ts =>
      if t = "define".toList then
        match ts with
        | [name, value] =>
          match lookupName name defs with
          | some _ => .error (.duplicateDefine l)
          | none => extractDefines (defs ++ [(name, value)]) ls
        | _ => .error (.malformedDefine l)
      else
        match extractDefines defs ls with
        | .ok (ds, rest) => .ok (ds, joinTokens (t :: ts) :: rest)
        | .error e => .error e

/-- Stage 4 on one line: each token that is a defined name becomes its value, once (R125). -/
def substituteLine (defs : List (Token × Token)) (l : Line) : Line :=
  joinTokens ((tokenize l).map (fun t => (lookupName t defs).getD t))

/-- Stage 4 (R125). -/
def substitute (defs : List (Token × Token)) (ls : List Line) : List Line := ls.map (substituteLine defs)

/-- A token that starts with `.` (R126, R127). -/
def startsWithDot (t : Token) : Bool := t.head? == some '.'

/-- Stage 5: the labels and the indices they annotate; `addr` is the counter (R126). -/
def extractLabels (addr : Nat) (labels : List (Token × Nat)) :
    List Line → Except PreprocessError (List (Token × Nat))
  | [] => .ok labels
  | l :: ls =>
    match tokenize l with
    | [] => extractLabels addr labels ls
    | t :: ts =>
      if startsWithDot t then
        match lookupName t labels with
        | some _ => .error (.duplicateLabel l)
        | none => extractLabels (if ts.isEmpty then addr else addr + 1) (labels ++ [(t, addr)]) ls
      else extractLabels (addr + 1) labels ls

/-- A number as its decimal digits. -/
def decimalString (n : Nat) : Token := Nat.toDigits 10 n

/-- Stage 6 on operand tokens: a label becomes its index, any other token with a leading `.` is an error (R127).
Of several such tokens in one line the leftmost is reported: DESIGN CHOICE, unsafe (log 27). -/
def resolveOperands (labels : List (Token × Nat)) (l : Line) : List Token → Except PreprocessError (List Token)
  | [] => .ok []
  | t :: ts =>
    match lookupName t labels with
    | some a =>
      match resolveOperands labels l ts with
      | .ok r => .ok (decimalString a :: r)
      | .error e => .error e
    | none =>
      if startsWithDot t then .error (.unresolvedLabel l t)
      else
        match resolveOperands labels l ts with
        | .ok r => .ok (t :: r)
        | .error e => .error e

/-- The tokens of a line without its leading label token (R127). -/
def withoutLabel (ts : List Token) : List Token :=
  match ts with
  | [] => []
  | t :: rest => if startsWithDot t then rest else t :: rest

/-- Stage 6: label-only lines go, leading labels go, label operands are resolved (R127). -/
def resolveLabels (labels : List (Token × Nat)) : List Line → Except PreprocessError (List Line)
  | [] => .ok []
  | l :: ls =>
    match withoutLabel (tokenize l) with
    | [] => resolveLabels labels ls
    | op :: args =>
      match resolveOperands labels l args with
      | .error e => .error e
      | .ok r =>
        match resolveLabels labels ls with
        | .ok rest => .ok (joinTokens (op :: r) :: rest)
        | .error e => .error e

/-- At least two characters, the first and the last a double quote (R128). -/
def isQuoted (t : Token) : Bool :=
  decide (2 ≤ t.length) && t.head? == some quoteChar && t.getLast? == some quoteChar

/-- The number of a character literal: a space is 0, a letter its position in the alphabet (R128). -/
def charNumber (c : Char) : Option Nat :=
  if c = ' ' then some 0
  else if 'A'.toNat ≤ c.toNat ∧ c.toNat ≤ 'Z'.toNat then some (c.toNat - 'A'.toNat + 1)
  else if 'a'.toNat ≤ c.toNat ∧ c.toNat ≤ 'z'.toNat then some (c.toNat - 'a'.toNat + 1)
  else none

/-- Stage 7 on one token (R128). -/
def literalToken (l : Line) (t : Token) : Except PreprocessError Token :=
  if isQuoted t then
    match (t.drop 1).dropLast with
    | [c] =>
      match charNumber c with
      | some n => .ok (decimalString n)
      | none => .error (.characterLiteral l t)
    | _ => .error (.characterLiteral l t)
  else .ok t

/-- Stage 7 on the tokens of a line (R128). Of several bad literals in one line the leftmost is reported:
DESIGN CHOICE, unsafe (log 27). -/
def literalTokens (l : Line) : List Token → Except PreprocessError (List Token)
  | [] => .ok []
  | t :: ts =>
    match literalToken l t with
    | .error e => .error e
    | .ok u =>
      match literalTokens l ts with
      | .ok us => .ok (u :: us)
      | .error e => .error e

/-- Stage 7 (R128). -/
def extractLiterals : List Line → Except PreprocessError (List Line)
  | [] => .ok []
  | l :: ls =>
    match literalTokens l (tokenize l) with
    | .error e => .error e
    | .ok ts =>
      match extractLiterals ls with
      | .ok rest => .ok (joinTokens ts :: rest)
      | .error e => .error e

/-- The preprocessor: the seven stages in order, the first error ending the pass (R120, R129). -/
def preprocess (ls : List Line) : Except PreprocessError (List Line) :=
  match extractDefines [] (stripComments (stripBlank ls)) with
  | .error e => .error e
  | .ok (defs, ls3) =>
    let ls4 := substitute defs ls3
    match extractLabels 0 [] ls4 with
    | .error e => .error e
    | .ok labels =>
      match resolveLabels labels ls4 with
      | .error e => .error e
      | .ok ls6 => extractLiterals ls6

/-- The lines of a text, split at line feeds (R118; log 24). -/
def splitLines : List Char → List Line
  | [] => [[]]
  | c :: cs =>
    if c = Char.ofNat 10 then [] :: splitLines cs
    else
      match splitLines cs with
      | [] => [[c]]
      | l :: ls => (c :: l) :: ls

end Sys2Proof.Machine
end

