-- ==== Sys2Proof/Machine/TextDecode.lean ====
section
/-! DEFINITION. Text decode of one preprocessed line (spec/30_encoding.md R131 to R133) and the text-level executor
(spec/40_cycle_system.md R172, R179). -/

namespace Sys2Proof.Machine

/-- Why operands are refused (R132); `pos` counts operands from the left, from 0. -/
inductive OperandFault where
  | count
  | type (pos : Nat)
  | range (pos : Nat)
deriving DecidableEq, Repr

/-- The text decode errors with the line and the operand at fault (spec/60_exceptions.md R280; log 16). -/
inductive LineError where
  | unknownOpcode (line : Line)
  | operandCount (line : Line)
  | operandType (line : Line) (operand : Token)
  | operandRange (line : Line) (operand : Token)
deriving DecidableEq, Repr

/-- The number an operand stands for, if it is of the kind asked for (R131, R132). -/
def operandValue? (k : OperandKind) (o : Operand) : Option Nat :=
  match k, o with
  | .reg, .reg n => some n
  | .port, .port n => some n
  | .imm16, .num n => some n
  | .off8, .num n => some n
  | .addr11, .num n => some n
  | _, _ => none

/-- The values of the operands from the left, or the first fault: the wrong kind, else out of range
(R132, spec/60_exceptions.md R288). `pos` is the position of the first one. -/
def operandValues (pos : Nat) : List OperandKind → List Operand → Except OperandFault (List Nat)
  | [], [] => .ok []
  | k :: ks, o :: os =>
    match operandValue? k o with
    | none => .error (.type pos)
    | some n =>
      if n < k.bound then
        match operandValues (pos + 1) ks os with
        | .ok ns => .ok (n :: ns)
        | .error e => .error e
      else .error (.range pos)
  | _, _ => .error .count

/-- The whole operand check of an opcode: the count first, then kinds and ranges from the left
(R132, spec/60_exceptions.md R288). -/
def checkOperands (op : Opcode) (os : List Operand) : Except OperandFault (List Nat) :=
  if os.length = op.shape.length then operandValues 0 op.shape os else .error .count

/-- The instruction of an opcode whose checked operand values, in source order, are `vs`
(the field mapping of R133; log 26). -/
def buildInstr (op : Opcode) (vs : List Nat) : Instr :=
  let reg (k : Nat) : RegIx := BitVec.ofNat 5 (vs.getD k 0)
  let addr : Addr := BitVec.ofNat 11 (vs.getD 0 0)
  match op with
  | .nop => .nop
  | .add => .add (reg 0) (reg 1) (reg 2)
  | .sub => .sub (reg 0) (reg 1) (reg 2)
  | .xor => .xor (reg 0) (reg 1) (reg 2)
  | .or => .or (reg 0) (reg 1) (reg 2)
  | .and => .and (reg 0) (reg 1) (reg 2)
  | .rsh => .rsh (reg 0) (reg 1)
  | .adi => .adi (reg 0) (reg 1) (BitVec.ofNat 16 (vs.getD 2 0))
  | .st => .st (reg 0) (reg 1) (BitVec.ofNat 8 (vs.getD 2 0))
  | .ld => .ld (reg 0) (reg 1) (BitVec.ofNat 8 (vs.getD 2 0))
  | .ptSt => .ptSt (reg 0) (BitVec.ofNat 3 (vs.getD 1 0))
  | .ptLd => .ptLd (reg 0) (BitVec.ofNat 3 (vs.getD 1 0))
  | .jmp => .jmp addr
  | .cal => .cal addr
  | .ret => .ret
  | .beq => .beq addr
  | .bne => .bne addr
  | .blt => .blt addr
  | .bgt => .bgt addr
  | .hlt => .hlt

/-- The value of one or more decimal digits, leading zeros allowed (R131). -/
def decimal? (t : Token) : Option Nat :=
  if !t.isEmpty && t.all Char.isDigit then
    some (t.foldl (fun n c => 10 * n + (c.toNat - '0'.toNat)) 0)
  else none

/-- How an operand token reads (R131). -/
def readOperand (t : Token) : Operand :=
  match t with
  | 'R' :: ds => match decimal? ds with | some n => .reg n | none => .other
  | 'P' :: ds => match decimal? ds with | some n => .port n | none => .other
  | _ => match decimal? t with | some n => .num n | none => .other

/-- The mnemonics (R110). -/
def mnemonicOf : Opcode → Token
  | .nop => "NOP".toList
  | .add => "ADD".toList
  | .sub => "SUB".toList
  | .xor => "XOR".toList
  | .or => "OR".toList
  | .and => "AND".toList
  | .rsh => "RSH".toList
  | .adi => "ADI".toList
  | .st => "ST".toList
  | .ld => "LD".toList
  | .ptSt => "PT-ST".toList
  | .ptLd => "PT-LD".toList
  | .jmp => "JMP".toList
  | .cal => "CAL".toList
  | .ret => "RET".toList
  | .beq => "BEQ".toList
  | .bne => "BNE".toList
  | .blt => "BLT".toList
  | .bgt => "BGT".toList
  | .hlt => "HLT".toList

/-- The upper case of a letter a to z (R132; log 18). -/
def upperChar (c : Char) : Char :=
  if 'a'.toNat ≤ c.toNat ∧ c.toNat ≤ 'z'.toNat then Char.ofNat (c.toNat - 32) else c

/-- The opcode an opcode token names, upper-cased first (R132). -/
def opcodeOfToken? (t : Token) : Option Opcode :=
  Opcode.all.find? (fun op => mnemonicOf op == t.map upperChar)

/-- Text decode of one preprocessed line (R132). -/
def decodeLine (l : Line) : Except LineError Instr :=
  match tokenize l with
  | [] => .error (.unknownOpcode l)
  | t :: ts =>
    match opcodeOfToken? t with
    | none => .error (.unknownOpcode l)
    | some op =>
      match checkOperands op (ts.map readOperand) with
      | .ok vs => .ok (buildInstr op vs)
      | .error .count => .error (.operandCount l)
      | .error (.type k) => .error (.operandType l (ts.getD k []))
      | .error (.range k) => .error (.operandRange l (ts.getD k []))

/-- Why a step of the text-level executor stops. -/
inductive TextFault where
  /-- The line at PC does not decode (R132). Safe. -/
  | line (e : LineError)
  /-- A fault of the machine itself. Safe. -/
  | machine (f : Fault)
deriving DecidableEq, Repr

/-- A result of the machine as one of the text-level executor. -/
def liftResult : Result → Host.Outcome State TextFault Refusal
  | .next s => .next s
  | .fault f => .fault (.machine f)
  | .refused r => .refused r

/-- One step of the text-level executor over a preprocessed program: the line at PC is decoded by R132 and executed
by the same rules (spec/40_cycle_system.md R172, R179). -/
def textStep (prog : List Line) (s : State) : Host.Outcome State TextFault Refusal :=
  match prog[s.pc.toNat]? with
  | none => .fault (.machine (.overrun s.pc))
  | some l =>
    match decodeLine l with
    | .error e => .fault (.line e)
    | .ok i => liftResult (exec i s)

end Sys2Proof.Machine
end

