-- ==== Sys2Proof/Machine/Assembler.lean ====
section
/-! DEFINITION. The assembler, from text to instruction words (spec/00_scope.md R15, spec/30_encoding.md R140 to
R146), and the check on a binary program before it is loaded (R114). -/

namespace Sys2Proof.Machine

/-- Why assembly fails (spec/60_exceptions.md R280). -/
inductive AssembleError where
  | preprocess (e : PreprocessError)
  | encoding (line : Line)
deriving DecidableEq, Repr

/-- `AssemblyShapeError`: a line that is not 32 characters `0` or `1`, or too many lines (R114; log 17). -/
inductive ShapeError where
  | badLine (line : Line)
  | tooManyLines (count : Nat)
deriving DecidableEq, Repr

/-- Encode preprocessed lines, all or nothing; the first failing line is the one reported (R142, R143). -/
def encodeLines : List Line → Except AssembleError (List InstrWord)
  | [] => .ok []
  | l :: ls =>
    match decodeLine l with
    | .error _ => .error (.encoding l)
    | .ok i =>
      match encodeLines ls with
      | .ok ws => .ok (encode i :: ws)
      | .error e => .error e

/-- `assemble(text)` on the lines of the text (spec/00_scope.md R15). -/
def assemble (ls : List Line) : Except AssembleError (List InstrWord) :=
  match preprocess ls with
  | .error e => .error (.preprocess e)
  | .ok out => encodeLines out

/-- `assemble(text)` on the text itself. -/
def assembleText (text : List Char) : Except AssembleError (List InstrWord) := assemble (splitLines text)

/-- The binary program of a list of words, one 32-character line each (R114, R140). -/
def binaryProgram (ws : List InstrWord) : List Line := ws.map wordLine

/-- The instruction memory a binary program gives, or `AssemblyShapeError`; line `k` becomes `imem[k]` (R114). -/
def loadImage (ls : List Line) : Except ShapeError (List InstrWord) :=
  match ls.find? (fun l => !wellFormedImageLine l) with
  | some l => .error (.badLine l)
  | none => if ls.length ≤ Config.imemMax then .ok (ls.map lineWord) else .error (.tooManyLines ls.length)

end Sys2Proof.Machine
end

