-- ==== Sys2Proof/Machine/Scheduler.lean ====
section
/-! DEFINITION. The block's boundary: the step outcome of spec/00_scope.md R13, the snapshot of R14, and the host's
commands and run loop (spec/60_exceptions.md R300 to R309), less its wall-clock pacing (log 23). -/

namespace Sys2Proof.Machine

/-- The outcome of one step as the block hands it to the host (spec/00_scope.md R13), each with the info of
spec/60_exceptions.md R280. -/
inductive StepOutcome where
  | completed (s : State)
  | halted (s : State)
  | screenError (s : State) (x y : Coord)
  | overrun (pc : Word)
  | fault (f : Fault)
  | refused (r : Refusal)
deriving DecidableEq, Repr

/-- The outcome of a next state, by what it reports (spec/40_cycle_system.md R176). -/
def outcomeOfNext (s : State) : StepOutcome :=
  match s.report with
  | .completed => .completed s
  | .halted => .halted s
  | .screenError x y => .screenError s x y

/-- The outcome of the step at `s` (spec/00_scope.md R13, spec/40_cycle_system.md R176, R177). -/
def stepOutcome (s : State) : StepOutcome :=
  match step s with
  | .next t => outcomeOfNext t
  | .fault (.overrun pc) => .overrun pc
  | .fault f => .fault f
  | .refused r => .refused r

/-- What the host's snapshot shows (spec/00_scope.md R14): both port files among it, the read ports with the value each
would return. The back buffer and the latches are not part of it (spec/10_state.md R55; log 21). -/
structure Snapshot where
  registers : Vector Word 32
  writePorts : Vector Word 8
  readPorts : Vector Word 8
  memory : Memory
  flags : Flags
  pc : Word
  callStack : List Word
  frontBuffer : Screen
  marquee : Marquee
  number : NumShown
  numberDebug : Word
  source : List Line
deriving DecidableEq, Repr

/-- The value each read port would return at `s`, without the read's side effect (spec/43_ports.md R240 to R243,
spec/60_exceptions.md R308). -/
def State.readPorts (s : State) : Vector Word 8 := Vector.ofFn (fun n : Fin 8 => (portRead (BitVec.ofFin n) s).1)

/-- The snapshot of a state; reading it changes nothing (spec/60_exceptions.md R308). -/
def State.snapshot (s : State) : Snapshot where
  registers := s.x
  writePorts := s.wp
  readPorts := s.readPorts
  memory := s.dmem
  flags := s.flags
  pc := s.pc
  callStack := s.cs
  frontBuffer := s.pixFront
  marquee := s.mqShown
  number := s.numShown
  numberDebug := s.numDebug
  source := s.source

/-- The host's commands: those of spec/60_exceptions.md R300, the loads (R300, R309) and the snapshot on demand
(R308, R309). -/
inductive Command where
  | reset
  | step
  | stop
  | run (speed : Nat)
  | setSpeed (n : Nat)
  | controllerInput (b : Buttons)
  | load (image : List Line)
  | loadSource (source : List Line)
  | snapshot
deriving DecidableEq, Repr

/-- What the block gives back (the last column of spec/60_exceptions.md R309): the outcome of a step with the snapshot
after it, a snapshot, or an error of a load. `none` answers a command that executes nothing and shows nothing
(log 30). -/
inductive Reply where
  | none
  | outcome (o : StepOutcome) (after : Snapshot)
  | snapshot (p : Snapshot)
  | shapeError (e : ShapeError)
  | assembleError (e : AssembleError)
deriving DecidableEq, Repr

/-- What can happen at the block's boundary: a command of the host, or one iteration of the run loop. -/
inductive Event where
  | command (c : Command)
  | tick
deriving DecidableEq, Repr

def State.setRunState (s : State) (r : RunState) : State := { s with runState := r }

def State.setStop (s : State) (b : Bool) : State := { s with stopRequested := b }

def State.setSpeed (s : State) (n : Nat) : State := { s with speed := n }

def State.setButtons (s : State) (b : Buttons) : State := { s with buttons := b }

def State.setProgram (s : State) (imem : List InstrWord) (source : List Line) : State :=
  { s with imem := imem, source := source }

/-- `reset`: a fresh state around the program, its two draws the next ones (spec/60_exceptions.md R306,
spec/70_reset_and_hazards.md R320 to R325). -/
def hostReset (s : State) : State :=
  State.fresh (Config.resetFlagsDraw s.drawCount) (Config.randDraw s.drawCount) (s.drawCount + 1) s.imem s.source
    s.speed

/-- The run state after a completed step: a step that comes during a run leaves the run going (R301, R307; log 11). -/
def afterCompleted (r : RunState) : RunState :=
  match r with
  | .running => .running
  | _ => .idle

/-- The state an outcome leaves when the step was taken at `s`, the run state set from the outcome
(spec/60_exceptions.md R284, R301, R302). -/
def afterOutcome (s : State) (o : StepOutcome) : State :=
  match o with
  | .completed t => t.setRunState (afterCompleted s.runState)
  | .halted t => t.setRunState .halted
  | .screenError t _ _ => t.setRunState .idle
  | .overrun _ => s.setRunState .idle
  | .fault _ => s.setRunState .idle
  | .refused _ => s.setRunState .idle

/-- One step, with its outcome and the snapshot after it reported (R301, R309). -/
def hostStep (s : State) : State × Reply :=
  let t := afterOutcome s (stepOutcome s)
  (t, .outcome (stepOutcome s) t.snapshot)

/-- The program load from a binary image; a bad image leaves the state as it was
(spec/30_encoding.md R114, spec/70_reset_and_hazards.md R325). -/
def hostLoad (s : State) (image : List Line) : State × Reply :=
  match loadImage image with
  | .ok ws => (s.setProgram ws [], .none)
  | .error e => (s, .shapeError e)

/-- The program load from assembly text: assembled, written as a binary program and loaded, its preprocessed source
kept for the snapshot (spec/00_scope.md R14; log 13). -/
def hostLoadSource (s : State) (ls : List Line) : State × Reply :=
  match preprocess ls with
  | .error e => (s, .assembleError (.preprocess e))
  | .ok out =>
    match encodeLines out with
    | .error e => (s, .assembleError e)
    | .ok ws =>
      match loadImage (binaryProgram ws) with
      | .ok words => (s.setProgram words out, .none)
      | .error e => (s, .shapeError e)

/-- One command of the host, between two instructions (spec/60_exceptions.md R300 to R309). A `run` during a run takes
the new speed, clears a pending stop flag and lets the one run go on: DESIGN CHOICE, unsafe (log 29). -/
def command (c : Command) (s : State) : State × Reply :=
  match c with
  | .reset => (hostReset s, .snapshot (hostReset s).snapshot)
  | .step => hostStep s
  | .stop => (s.setStop true, .none)
  | .run n => (((s.setSpeed n).setStop false).setRunState .running, .none)
  | .setSpeed n => (s.setSpeed n, .none)
  | .controllerInput b => (s.setButtons b, .none)
  | .load image => hostLoad s image
  | .loadSource ls => hostLoadSource s ls
  | .snapshot => (s, .snapshot s.snapshot)

/-- One iteration of the run loop: the stop flag is checked, then one instruction is executed (R302, R303). Outside a
run nothing happens. -/
def tick (s : State) : State × Reply :=
  match s.runState with
  | .running => if s.stopRequested then (s.setRunState .idle, .none) else hostStep s
  | _ => (s, .none)

/-- One event. -/
def event (e : Event) (s : State) : State × Reply :=
  match e with
  | .command c => command c s
  | .tick => tick s

/-- The state after a sequence of events, the first one first: any host schedule is such a sequence (R300, R309; log 25). -/
def events : List Event → State → State
  | [], s => s
  | e :: es, s => events es (event e s).1

/-- What the block gives back over a sequence of events, in order. -/
def replies : List Event → State → List Reply
  | [], _ => []
  | e :: es, s => (event e s).2 :: replies es (event e s).1

/-- The host keeps its duties at this command (spec/60_exceptions.md R309): a program was loaded before a step or a run
(`loaded` says so), and the program is not changed during a run (log 22). That no step comes inside a run's step
(R307) holds of every event. -/
def dutiful (loaded : Bool) (c : Command) (s : State) : Bool :=
  match c with
  | .load _ | .loadSource _ => s.runState != .running
  | .step | .run _ => loaded
  | .reset | .stop | .setSpeed _ | .controllerInput _ | .snapshot => true

/-- Whether a program is loaded after this command at `s`: a load that is refused loads none. -/
def loadedAfter (loaded : Bool) (c : Command) (s : State) : Bool :=
  match c with
  | .load _ | .loadSource _ => loaded || (command c s).2 == .none
  | .reset | .step | .stop | .run _ | .setSpeed _ | .controllerInput _ | .snapshot => loaded

/-- The host keeps its duties throughout a sequence of events; an iteration of the run loop is not the host's. -/
def dutifulSchedule (loaded : Bool) : List Event → State → Bool
  | [], _ => true
  | .command c :: es, s =>
    dutiful loaded c s && dutifulSchedule (loadedAfter loaded c s) es (command c s).1
  | .tick :: es, s => dutifulSchedule loaded es (tick s).1

/-- The pacing of a run as a divisor: the interval is `1 / max(1, speed)` seconds (R302, R305). No rule of the machine
depends on it (spec/70_reset_and_hazards.md R335; log 23). -/
def intervalDivisor (speed : Nat) : Nat := max 1 speed

end Sys2Proof.Machine
end

