-- ==== Sys2Proof/Safety.lean ====
section
/-! DEFINITION. What counts as a safe run and a normal end (spec/40_cycle_system.md R183), the invariant of
spec/10_state.md R53, and the frames the statements speak in. -/

namespace Sys2Proof.Machine

/-- The numeric display shows blank or a number in -128 to 255 (spec/10_state.md R46). -/
def NumShown.inRange : NumShown → Bool
  | .blank => true
  | .shown v => decide (-128 ≤ v) && decide (v ≤ 255)

/-- The invariant between instructions (spec/10_state.md R53), with the canonical form of memory (log 1), the bound
on the program (R48) and on the numeric display (R46). -/
structure State.Inv (s : State) : Prop where
  r0 : s.readReg 0#5 = 0#16
  d0 : s.readCell 0 = 0#16
  stack : s.cs.length ≤ Config.stackDepth
  flags : s.flags.legal = true
  memory : Memory.wf s.dmem = true
  number : s.numShown.inRange = true
  program : s.imem.length ≤ Config.imemMax

/-- The program and the host-side state are unchanged. -/
structure SameHost (s t : State) : Prop where
  imem : t.imem = s.imem
  source : t.source = s.source
  runState : t.runState = s.runState
  stopRequested : t.stopRequested = s.stopRequested
  speed : t.speed = s.speed

/-- The screen is unchanged: buffers and latches. -/
structure SameScreen (s t : State) : Prop where
  pixBack : t.pixBack = s.pixBack
  pixFront : t.pixFront = s.pixFront
  pixLatch : t.pixLatch = s.pixLatch
  penX : t.penX = s.penX
  penY : t.penY = s.penY

/-- The marquee is unchanged. -/
structure SameMarquee (s t : State) : Prop where
  mqStage : t.mqStage = s.mqStage
  mqShown : t.mqShown = s.mqShown
  mqCursor : t.mqCursor = s.mqCursor

/-- The numeric display is unchanged. -/
structure SameNumber (s t : State) : Prop where
  numShown : t.numShown = s.numShown
  numDebug : t.numDebug = s.numDebug

/-- Every output device and every write-port register is unchanged. -/
structure SameOutputs (s t : State) : Prop where
  wp : t.wp = s.wp
  screen : SameScreen s t
  marquee : SameMarquee s t
  number : SameNumber s t

/-- Every port device, the controller among them, and every write-port register is unchanged. -/
structure SameDevices (s t : State) : Prop where
  outputs : SameOutputs s t
  buttons : t.buttons = s.buttons

/-- Registers after an instruction that writes none: R0 reads 0, every other register is unchanged. -/
def RegsKept (s t : State) : Prop :=
  ∀ i : RegIx, t.readReg i = if i = 0#5 then 0#16 else s.readReg i

/-- Registers after an instruction that writes `v` to `rd`: R0 reads 0 even when it is `rd`, `rd` holds `v`, every
other register is unchanged. -/
def RegsSet (s t : State) (rd : RegIx) (v : Word) : Prop :=
  ∀ i : RegIx, t.readReg i = if i = 0#5 then 0#16 else if i = rd then v else s.readReg i

/-- Data memory after an instruction that stores nothing: D0 reads 0, every other cell is unchanged. -/
def CellsKept (s t : State) : Prop :=
  ∀ a : Nat, t.readCell a = if a = 0 then 0#16 else s.readCell a

/-- Data memory after a store of `v` to cell `ea`: D0 reads 0 even when it is `ea`, `ea` holds `v`, every other cell
is unchanged. -/
def CellsSet (s t : State) (ea : Nat) (v : Word) : Prop :=
  ∀ a : Nat, t.readCell a = if a = 0 then 0#16 else if a = ea then v else s.readCell a

/-- PC advanced by one, modulo 2^16 (spec/40_cycle_system.md R175 action 4). -/
def Advanced (s t : State) : Prop := t.pc.toNat = (s.pc.toNat + 1) % 2 ^ 16

/-- The call stack is unchanged but for the completion's cut to its most recent 16 entries
(spec/40_cycle_system.md R175 action 3). -/
def StackKept (s t : State) : Prop := t.cs = last16 s.cs

/-- The whole effect of an ALU-class instruction with result `r` (spec/41_alu.md R191). -/
structure AluEffect (s t : State) (rd : RegIx) (r : Word) : Prop where
  regs : RegsSet s t rd r
  flags : t.flags = deriveFlags r
  pc : Advanced s t
  cells : CellsKept s t
  stack : StackKept s t
  devices : SameDevices s t
  host : SameHost s t
  report : t.report = .completed

/-- What every PT-ST leaves, whatever its port does: the port register holds the value; registers, memory, flags,
call stack, controller, program and host are untouched (spec/43_ports.md R220, R221). -/
structure PtStEffect (s t : State) (n : PortIx) (v : Word) : Prop where
  ports : ∀ m : PortIx, t.readWP m = if m = n then v else s.readWP m
  regs : RegsKept s t
  flags : t.flags = s.flags
  pc : Advanced s t
  cells : CellsKept s t
  stack : StackKept s t
  buttons : t.buttons = s.buttons
  host : SameHost s t

/-- The whole effect of a PT-LD that read `v`, but for the controller (spec/43_ports.md R245). -/
structure PtLdEffect (s t : State) (rd : RegIx) (v : Word) : Prop where
  regs : RegsSet s t rd v
  flags : t.flags = s.flags
  pc : Advanced s t
  cells : CellsKept s t
  stack : StackKept s t
  outputs : SameOutputs s t
  host : SameHost s t
  report : t.report = .completed

/-- What every control transfer leaves but PC and the call stack (spec/44_control.md). -/
structure ControlEffect (s t : State) : Prop where
  regs : RegsKept s t
  flags : t.flags = s.flags
  cells : CellsKept s t
  devices : SameDevices s t
  host : SameHost s t
  report : t.report = .completed

/-- The ALU-class instructions (spec/00_scope.md glossary). -/
def isAlu : Instr → Bool
  | .add _ _ _ | .sub _ _ _ | .xor _ _ _ | .or _ _ _ | .and _ _ _ | .rsh _ _ | .adi _ _ _ => true
  | .nop | .st _ _ _ | .ld _ _ _ | .ptSt _ _ | .ptLd _ _ | .jmp _ | .cal _ | .ret | .beq _ | .bne _ | .blt _
  | .bgt _ | .hlt => false

/-- What a program can tell of a state through its later results: registers, memory, PC, flags, call stack, the noise
value and the controller; and the index of the draws to come (spec/10_state.md R55). -/
structure SameView (s t : State) : Prop where
  x : t.x = s.x
  dmem : t.dmem = s.dmem
  pc : t.pc = s.pc
  flags : t.flags = s.flags
  cs : t.cs = s.cs
  rand : t.rand = s.rand
  buttons : t.buttons = s.buttons
  drawCount : t.drawCount = s.drawCount

/-- The line holds an instruction, after its label if it has one (spec/30_encoding.md R126, R127): it is neither blank
nor a label alone. -/
def instructionLine (l : Line) : Bool := !(withoutLabel (tokenize l)).isEmpty

/-- A run of CALs, one after the other (spec/44_control.md R261). -/
def callAll : List Addr → State → Result
  | [], s => .next s
  | a :: as, s =>
    match exec (.cal a) s with
    | .next t => callAll as t
    | r => r

/-- The return addresses a run of CALs pushes, the first at PC `pc`: each one past its CAL's own index. -/
def returnAddresses : Word → List Addr → List Word
  | _, [] => []
  | pc, a :: as => (pc + 1#16) :: returnAddresses (targetOf a) as

/-- A step the spec does not count as an error: it completed, or it halted (spec/40_cycle_system.md R183). -/
def goodStep (s : State) : Bool :=
  match stepOutcome s with
  | .completed _ => true
  | .halted _ => true
  | .screenError _ _ _ | .overrun _ | .fault _ | .refused _ => false

/-- The state a run of at most `fuel` steps from `s` ends in, if it ends normally: at its first `Halted` outcome. An
overrun, a fault or a screen error on the way is a failed run (spec/40_cycle_system.md R183). -/
def runToHalt : Nat → State → Option State
  | 0, _ => none
  | fuel + 1, s =>
    match stepOutcome s with
    | .halted t => some t
    | .completed t => runToHalt fuel t
    | .screenError _ _ _ | .overrun _ | .fault _ | .refused _ => none

end Sys2Proof.Machine
end

