-- ==== Sys2Proof/Certificates/Slice0/Obligations.lean ====
section
/-! DEFINITION. The statements for the provers. Each docstring names the rule of spec/ it formalises; where a clause
rests on the spec's own decision or on a choice of the model, it says so. -/

open Sys2Proof Sys2Proof.Machine

/-! Encoding and decoding. -/

/-- Decoding the word of an instruction gives the instruction back (spec/30_encoding.md R144, which the spec derives). -/
def Obligations.DecodeEncodeRoundTrip : Prop := ∀ i : Instr, decode (encode i) = .ok i

/-- Every word that decodes is the word of the instruction it decodes to: each instruction has one word
(spec/30_encoding.md R111, R113, R140; the spec's decision D3 on the zero fields). -/
def Obligations.EncodeDecodeRoundTrip : Prop := ∀ (w : InstrWord) (i : Instr), decode w = .ok i → encode i = w

/-- Each format's word is the sum of its fields at their positions, with nothing else set
(spec/30_encoding.md R101 to R110, R140). -/
def Obligations.FormatsPlaceTheirFields : Prop :=
  (encode .nop).toNat = 0 ∧ (encode .ret).toNat = 14 ∧ (encode .hlt).toNat = 19 ∧
  (∀ rd rs1 rs2 : RegIx,
    let f := rs2.toNat * 2 ^ 15 + rs1.toNat * 2 ^ 10 + rd.toNat * 2 ^ 5
    (encode (.add rd rs1 rs2)).toNat = f + 1 ∧ (encode (.sub rd rs1 rs2)).toNat = f + 2 ∧
    (encode (.xor rd rs1 rs2)).toNat = f + 3 ∧ (encode (.or rd rs1 rs2)).toNat = f + 4 ∧
    (encode (.and rd rs1 rs2)).toNat = f + 5) ∧
  (∀ rd rs : RegIx, (encode (.rsh rd rs)).toNat = rs.toNat * 2 ^ 10 + rd.toNat * 2 ^ 5 + 6) ∧
  (∀ (rd rs : RegIx) (imm : Imm),
    (encode (.adi rd rs imm)).toNat = imm.toNat * 2 ^ 15 + rs.toNat * 2 ^ 10 + rd.toNat * 2 ^ 5 + 7) ∧
  (∀ (rv rb : RegIx) (off : Offset),
    (encode (.st rv rb off)).toNat = off.toNat * 2 ^ 20 + rb.toNat * 2 ^ 15 + rv.toNat * 2 ^ 10 + 8) ∧
  (∀ (rd rb : RegIx) (off : Offset),
    (encode (.ld rd rb off)).toNat = off.toNat * 2 ^ 20 + rb.toNat * 2 ^ 15 + rd.toNat * 2 ^ 5 + 9) ∧
  (∀ (rv : RegIx) (n : PortIx), (encode (.ptSt rv n)).toNat = n.toNat * 2 ^ 15 + rv.toNat * 2 ^ 10 + 10) ∧
  (∀ (rd : RegIx) (n : PortIx), (encode (.ptLd rd n)).toNat = n.toNat * 2 ^ 18 + rd.toNat * 2 ^ 5 + 11) ∧
  (∀ a : Addr,
    (encode (.jmp a)).toNat = a.toNat * 2 ^ 5 + 12 ∧ (encode (.cal a)).toNat = a.toNat * 2 ^ 5 + 13 ∧
    (encode (.beq a)).toNat = a.toNat * 2 ^ 5 + 15 ∧ (encode (.bne a)).toNat = a.toNat * 2 ^ 5 + 16 ∧
    (encode (.blt a)).toNat = a.toNat * 2 ^ 5 + 17 ∧ (encode (.bgt a)).toNat = a.toNat * 2 ^ 5 + 18)

/-- Decode refuses by name: as unknown, exactly the words with an opcode of 20 to 31; for its reserved bits, exactly
the words with a defined opcode that are no instruction's word, every such word with bit 31 set among them
(spec/30_encoding.md R111 to R113; the spec's decision D3). -/
def Obligations.DecodeRefusesByName : Prop :=
  (∀ w : InstrWord, decode w = .error (.unknownOpcode w) ↔ 20 ≤ w.toNat % 32) ∧
  (∀ w : InstrWord, w.toNat % 32 < 20 →
    (decode w = .error (.reservedBitsSet w) ↔ ∀ i : Instr, encode i ≠ w)) ∧
  (∀ w : InstrWord, w.toNat % 32 < 20 → 2 ^ 31 ≤ w.toNat → decode w = .error (.reservedBitsSet w))

/-- The example words of spec/30_encoding.md R117, one per format, decode to the instructions they stand for. -/
def Obligations.SampleWordsDecode : Prop :=
  decode 0x00000000 = .ok .nop ∧ decode 0x00018821 = .ok (.add 1 2 3) ∧ decode 0x00001486 = .ok (.rsh 4 5) ∧
  decode 0x01F40027 = .ok (.adi 1 0 1000) ∧ decode 0x00A18808 = .ok (.st 2 3 10) ∧
  decode 0x00A18089 = .ok (.ld 4 3 10) ∧ decode 0x0000880A = .ok (.ptSt 2 1) ∧
  decode 0x000400CB = .ok (.ptLd 6 1) ∧ decode 0x000000AC = .ok (.jmp 5) ∧ decode 0x00000013 = .ok .hlt

/-! One step. -/

/-- When the word at PC decodes to an instruction, the step is that instruction's meaning, which ends with the
completion; step adds nothing around it (spec/40_cycle_system.md R170 to R173, R177). -/
def Obligations.StepRunsDecoded : Prop :=
  ∀ (s : State) (w : InstrWord) (i : Instr), s.imem[s.pc.toNat]? = some w → decode w = .ok i → step s = exec i s

/-- A step stops, with no next state, at a PC past the program and at a word that does not decode
(spec/40_cycle_system.md R171, R172; the spec's decisions D3, D29; log 14). -/
def Obligations.StepStopsAtFetchAndDecode : Prop :=
  (∀ s : State, s.imem.length ≤ s.pc.toNat → step s = .fault (.overrun s.pc)) ∧
  (∀ (s : State) (w : InstrWord), s.imem[s.pc.toNat]? = some w → decode w = .error (.unknownOpcode w) →
    step s = .fault (.unknownOpcode w)) ∧
  (∀ (s : State) (w : InstrWord), s.imem[s.pc.toNat]? = some w → decode w = .error (.reservedBitsSet w) →
    step s = .fault (.reservedBitsSet w))

/-- No instruction is refused, and an instruction faults exactly when it is a ST or LD whose effective address is
above 255, or a RET on an empty call stack (spec/40_cycle_system.md R173; the spec's decisions D6, D7). -/
def Obligations.OnlyThreeInstructionsFault : Prop :=
  ∀ (i : Instr) (s : State),
    (∀ r, exec i s ≠ .refused r) ∧
    (∀ f, exec i s = .fault f ↔
      (∃ rv rb off, i = .st rv rb off ∧ 255 < (s.readReg rb).toNat + off.toNat ∧
        f = .dataAddressFault ((s.readReg rb).toNat + off.toNat)) ∨
      (∃ rd rb off, i = .ld rd rb off ∧ 255 < (s.readReg rb).toNat + off.toNat ∧
        f = .dataAddressFault ((s.readReg rb).toNat + off.toNat)) ∨
      (i = .ret ∧ s.cs = [] ∧ f = .callStackUnderflow s.pc))

/-- After every completed step R0 and D0 read 0 and the call stack holds at most 16 entries, whatever the state before
was and whatever the instruction wrote (spec/40_cycle_system.md R175). -/
def Obligations.EveryStepForcesZerosAndCutsTheStack : Prop :=
  ∀ s t : State, step s = .next t → t.readReg 0#5 = 0#16 ∧ t.readCell 0 = 0#16 ∧ t.cs.length ≤ 16

/-- Every completed step puts the next draw on read port 1 and leaves the index of the draw after it. The draw is the
model's free value (log 2): the statement holds for whatever sequence it is. -/
def Obligations.EveryStepRerollsReadPort1 : Prop :=
  (∀ s t : State, step s = .next t → t.rand = Config.randDraw s.drawCount ∧ t.drawCount = s.drawCount + 1) ∧
  (∀ (i : Instr) (s t : State), exec i s = .next t →
    t.rand = Config.randDraw s.drawCount ∧ t.drawCount = s.drawCount + 1)

/-- Only ALU-class instructions write the flags, and what they leave is one of the three legal states
(spec/10_state.md R37, R38). -/
def Obligations.OnlyAluInstructionsWriteFlags : Prop :=
  ∀ (i : Instr) (s t : State), exec i s = .next t →
    (isAlu i = false → t.flags = s.flags) ∧
    (isAlu i = true → t.flags.bne = !t.flags.beq ∧
      ((t.flags.beq, t.flags.blt, t.flags.bgt) = (true, false, false) ∨
       (t.flags.beq, t.flags.blt, t.flags.bgt) = (false, true, false) ∨
       (t.flags.beq, t.flags.blt, t.flags.bgt) = (false, false, true)))

/-- No instruction writes the instruction memory, and reset keeps it (spec/10_state.md R48, spec/20_memory.md R89,
spec/70_reset_and_hazards.md R325). -/
def Obligations.ProgramIsReadOnly : Prop :=
  (∀ s t : State, step s = .next t → t.imem = s.imem ∧ t.source = s.source) ∧
  (∀ s : State, (hostReset s).imem = s.imem)

/-- The back buffer changes only through write ports 4 and 6, the front buffer, which is the one the host's snapshot
shows, only through write port 7 (spec/10_state.md R43). -/
def Obligations.PixelsChangeOnlyThroughTheirPorts : Prop :=
  ∀ (i : Instr) (s t : State), exec i s = .next t →
    (t.pixBack ≠ s.pixBack → ∃ rv, i = .ptSt rv 4#3 ∨ i = .ptSt rv 6#3) ∧
    (t.pixFront ≠ s.pixFront → ∃ rv, i = .ptSt rv 7#3) ∧ t.snapshot.frontBuffer = t.pixFront

/-- The write-port registers, the screen, the marquee and the numeric display are read by no instruction: two states
that agree on `SameView` (registers, memory, PC, flags, call stack, noise value, controller and the index of
the next draw) give results that agree on it, or the same fault (spec/10_state.md R42, R55; R55 is the spec's own
inference). That the next states agree on the noise value and on the draw index is the model's choice, not the
spec's: a draw is a function of its index (logs 2 and 6), and the premise has the two indices equal. -/
def Obligations.OutputDevicesAreNeverReadBack : Prop :=
  ∀ (i : Instr) (s s' : State), SameView s s' →
    (∀ f, exec i s = .fault f ↔ exec i s' = .fault f) ∧
    (∀ t, exec i s = .next t → ∃ t', exec i s' = .next t' ∧ SameView t t')

/-! Flags and the ALU. -/

/-- The flags of a 16-bit result (spec/41_alu.md R190): Z for 0, N when the top bit is set, P otherwise; and the flags
come from the result even when the destination is R0. -/
def Obligations.FlagsFollowTheResult : Prop :=
  (∀ r : Word,
    ((deriveFlags r).blt = true ↔ 0x8000 ≤ r.toNat) ∧ ((deriveFlags r).beq = true ↔ r.toNat = 0) ∧
    (deriveFlags r).bne = !(deriveFlags r).beq ∧
    ((deriveFlags r).bgt = true ↔ 1 ≤ r.toNat ∧ r.toNat ≤ 0x7FFF)) ∧
  (∀ (s : State) (a b : RegIx) (imm : Imm),
    let x := s.readReg a
    let y := s.readReg b
    ∀ p ∈ [(Instr.add 0 a b, x + y), (.sub 0 a b, x - y), (.xor 0 a b, x ^^^ y), (.or 0 a b, x ||| y),
      (.and 0 a b, x &&& y), (.rsh 0 a, x >>> 1), (.adi 0 a imm, x + imm)],
      ∃ t, exec p.1 s = .next t ∧ t.readReg 0#5 = 0#16 ∧ t.flags = deriveFlags p.2)

/-- ADD (spec/41_alu.md R192): its encoding, its result modulo 2^16, the flags of the result, and nothing else. -/
def Obligations.AddResult : Prop :=
  ∀ (s : State) (rd rs1 rs2 : RegIx),
    (encode (.add rd rs1 rs2)).toNat = rs2.toNat * 2 ^ 15 + rs1.toNat * 2 ^ 10 + rd.toNat * 2 ^ 5 + 0b00001 ∧
    ∃ (t : State) (r : Word), exec (.add rd rs1 rs2) s = .next t ∧
      r.toNat = ((s.readReg rs1).toNat + (s.readReg rs2).toNat) % 2 ^ 16 ∧ AluEffect s t rd r

/-- SUB (spec/41_alu.md R193): the difference of the integers reduced modulo 2^16. -/
def Obligations.SubResult : Prop :=
  ∀ (s : State) (rd rs1 rs2 : RegIx),
    (encode (.sub rd rs1 rs2)).toNat = rs2.toNat * 2 ^ 15 + rs1.toNat * 2 ^ 10 + rd.toNat * 2 ^ 5 + 0b00010 ∧
    ∃ (t : State) (r : Word), exec (.sub rd rs1 rs2) s = .next t ∧
      (r.toNat : Int) = (((s.readReg rs1).toNat : Int) - ((s.readReg rs2).toNat : Int)) % 2 ^ 16 ∧
      AluEffect s t rd r

/-- XOR (spec/41_alu.md R194), bit by bit. -/
def Obligations.XorResult : Prop :=
  ∀ (s : State) (rd rs1 rs2 : RegIx),
    (encode (.xor rd rs1 rs2)).toNat = rs2.toNat * 2 ^ 15 + rs1.toNat * 2 ^ 10 + rd.toNat * 2 ^ 5 + 0b00011 ∧
    ∃ (t : State) (r : Word), exec (.xor rd rs1 rs2) s = .next t ∧
      (∀ k, r.getLsbD k = ((s.readReg rs1).getLsbD k != (s.readReg rs2).getLsbD k)) ∧ AluEffect s t rd r

/-- OR (spec/41_alu.md R195), bit by bit. -/
def Obligations.OrResult : Prop :=
  ∀ (s : State) (rd rs1 rs2 : RegIx),
    (encode (.or rd rs1 rs2)).toNat = rs2.toNat * 2 ^ 15 + rs1.toNat * 2 ^ 10 + rd.toNat * 2 ^ 5 + 0b00100 ∧
    ∃ (t : State) (r : Word), exec (.or rd rs1 rs2) s = .next t ∧
      (∀ k, r.getLsbD k = ((s.readReg rs1).getLsbD k || (s.readReg rs2).getLsbD k)) ∧ AluEffect s t rd r

/-- AND (spec/41_alu.md R196), bit by bit. -/
def Obligations.AndResult : Prop :=
  ∀ (s : State) (rd rs1 rs2 : RegIx),
    (encode (.and rd rs1 rs2)).toNat = rs2.toNat * 2 ^ 15 + rs1.toNat * 2 ^ 10 + rd.toNat * 2 ^ 5 + 0b00101 ∧
    ∃ (t : State) (r : Word), exec (.and rd rs1 rs2) s = .next t ∧
      (∀ k, r.getLsbD k = ((s.readReg rs1).getLsbD k && (s.readReg rs2).getLsbD k)) ∧ AluEffect s t rd r

/-- RSH (spec/41_alu.md R197): a logical shift by one. -/
def Obligations.RshResult : Prop :=
  ∀ (s : State) (rd rs : RegIx),
    (encode (.rsh rd rs)).toNat = rs.toNat * 2 ^ 10 + rd.toNat * 2 ^ 5 + 0b00110 ∧
    ∃ (t : State) (r : Word), exec (.rsh rd rs) s = .next t ∧
      r.toNat = (s.readReg rs).toNat / 2 ∧ AluEffect s t rd r

/-- ADI (spec/41_alu.md R198): the sum modulo 2^16; an immediate outside 0 to 65535 is refused at text decode. -/
def Obligations.AdiResult : Prop :=
  (∀ (s : State) (rd rs : RegIx) (imm : Imm),
    (encode (.adi rd rs imm)).toNat = imm.toNat * 2 ^ 15 + rs.toNat * 2 ^ 10 + rd.toNat * 2 ^ 5 + 0b00111 ∧
    ∃ (t : State) (r : Word), exec (.adi rd rs imm) s = .next t ∧
      r.toNat = ((s.readReg rs).toNat + imm.toNat) % 2 ^ 16 ∧ AluEffect s t rd r) ∧
  (∀ a b n : Nat, a < 32 → b < 32 → 65536 ≤ n →
    checkOperands .adi [.reg a, .reg b, .num n] = .error (.range 2))

/-! Loads and stores. -/

/-- ST with an effective address of at most 255 (spec/42_load_store.md R210): that cell takes the value, D0 reads 0
even when it is the cell, and nothing else changes but PC. -/
def Obligations.StoreResult : Prop :=
  ∀ (s : State) (rv rb : RegIx) (off : Offset), effectiveAddress (s.readReg rb) off ≤ 255 →
    effectiveAddress (s.readReg rb) off = (s.readReg rb).toNat + off.toNat ∧
    ∃ t, exec (.st rv rb off) s = .next t ∧
      CellsSet s t (effectiveAddress (s.readReg rb) off) (s.readReg rv) ∧
      RegsKept s t ∧ t.flags = s.flags ∧ Advanced s t ∧ StackKept s t ∧ SameDevices s t ∧ SameHost s t ∧
      t.report = .completed

/-- LD with an effective address of at most 255 (spec/42_load_store.md R211): the destination takes the cell's value,
R0 reads 0 even when it is the destination, and nothing else changes but PC. -/
def Obligations.LoadResult : Prop :=
  ∀ (s : State) (rd rb : RegIx) (off : Offset), effectiveAddress (s.readReg rb) off ≤ 255 →
    ∃ t, exec (.ld rd rb off) s = .next t ∧
      RegsSet s t rd (s.readCell ((s.readReg rb).toNat + off.toNat)) ∧ CellsKept s t ∧
      t.flags = s.flags ∧ Advanced s t ∧ StackKept s t ∧ SameDevices s t ∧ SameHost s t ∧ t.report = .completed

/-- A load sees the last store to its cell; D0 gives 0 (spec/20_memory.md R84 and spec/10_state.md R49, both the
spec's inferences). -/
def Obligations.LoadSeesLastStore : Prop :=
  ∀ (s : State) (rv rb rd : RegIx) (off : Offset), s.readReg 0#5 = 0#16 →
    (s.readReg rb).toNat + off.toNat ≤ 255 →
    ∃ t u, exec (.st rv rb off) s = .next t ∧ exec (.ld rd rb off) t = .next u ∧
      (rd ≠ 0#5 → u.readReg rd =
        if (s.readReg rb).toNat + off.toNat = 0 then 0#16 else s.readReg rv)

/-! Ports. -/

/-- Port 0 with at most one of its two bits set; the host's snapshot shows the committed string
(spec/43_ports.md R230). -/
def Obligations.MarqueeControlResult : Prop :=
  ∀ (s : State) (rv : RegIx), ¬(bitOf (s.readReg rv) 15 = true ∧ bitOf (s.readReg rv) 14 = true) →
    ∃ t, exec (.ptSt rv 0#3) s = .next t ∧ PtStEffect s t 0#3 (s.readReg rv) ∧ SameScreen s t ∧ SameNumber s t ∧
      t.report = .completed ∧ t.snapshot.marquee = t.mqShown ∧
      (bitOf (s.readReg rv) 15 = true → t.mqShown = s.mqStage ∧ t.mqStage = s.mqStage ∧ t.mqCursor = s.mqCursor) ∧
      (bitOf (s.readReg rv) 14 = true →
        t.mqShown = s.mqShown ∧ (∀ j : Fin 11, t.mqStage[j] = 0#5) ∧ t.mqCursor = 0) ∧
      (bitOf (s.readReg rv) 15 = false → bitOf (s.readReg rv) 14 = false → SameMarquee s t)

/-- Port 0 with both bits set: the staging buffer ends blank with its cursor at 0, and the display shows the old staging
text or blanks, by the order drawn (spec/43_ports.md R231, the spec's decision D21; log 4). -/
def Obligations.MarqueeBothBitsResult : Prop :=
  ∀ (s : State) (rv : RegIx), bitOf (s.readReg rv) 15 = true → bitOf (s.readReg rv) 14 = true →
    ∃ t, exec (.ptSt rv 0#3) s = .next t ∧ PtStEffect s t 0#3 (s.readReg rv) ∧ SameScreen s t ∧ SameNumber s t ∧
      t.report = .completed ∧ (∀ j : Fin 11, t.mqStage[j] = 0#5) ∧ t.mqCursor = 0 ∧
      (Config.marqueeOrderDraw s.drawCount = .commitFirst → t.mqShown = s.mqStage) ∧
      (Config.marqueeOrderDraw s.drawCount = .clearFirst → ∀ j : Fin 11, t.mqShown[j] = 0#5)

/-- Port 1: the low five bits go in at the cursor, which then advances and wraps from 10 to 0
(spec/43_ports.md R232). -/
def Obligations.MarqueeCharacterResult : Prop :=
  ∀ (s : State) (rv : RegIx),
    ∃ t, exec (.ptSt rv 1#3) s = .next t ∧ PtStEffect s t 1#3 (s.readReg rv) ∧ SameScreen s t ∧ SameNumber s t ∧
      t.report = .completed ∧ t.mqShown = s.mqShown ∧
      (∀ j : Fin 11, (t.mqStage[j]).toNat =
        if j = s.mqCursor then (s.readReg rv).toNat % 32 else (s.mqStage[j]).toNat) ∧
      t.mqCursor.val = (s.mqCursor.val + 1) % 11

/-- Port 2: the numeric display and its debug value (spec/43_ports.md R233, R234). -/
def Obligations.NumericDisplayResult : Prop :=
  ∀ (s : State) (rv : RegIx),
    let v := (s.readReg rv).toNat
    let mag := v % 256
    ∃ t, exec (.ptSt rv 2#3) s = .next t ∧ PtStEffect s t 2#3 (s.readReg rv) ∧ SameScreen s t ∧ SameMarquee s t ∧
      t.report = .completed ∧ t.numDebug = s.readReg rv ∧
      t.numShown =
        if v / 256 % 2 = 0 then .blank
        else if v / 512 % 2 = 1 ∧ 128 ≤ mag then .shown ((mag : Int) - 256) else .shown (mag : Int)

/-- Port 3: the pending coordinates, under either layout (spec/43_ports.md R235, the spec's parameter XY_LAYOUT; log 5);
no pixel changes. -/
def Obligations.PenResult : Prop :=
  ∀ (s : State) (rv : RegIx),
    let v := (s.readReg rv).toNat
    ∃ t, exec (.ptSt rv 3#3) s = .next t ∧ PtStEffect s t 3#3 (s.readReg rv) ∧ SameMarquee s t ∧ SameNumber s t ∧
      t.report = .completed ∧ t.pixBack = s.pixBack ∧ t.pixFront = s.pixFront ∧ t.pixLatch = s.pixLatch ∧
      (Config.xyLayout = .xHigh → t.penX.toNat = v / 32 % 32 ∧ t.penY.toNat = v % 32) ∧
      (Config.xyLayout = .xLow → t.penX.toNat = v % 32 ∧ t.penY.toNat = v / 32 % 32)

/-- Port 4 with both pending coordinates in 1 to 31: the latch goes to row 31 - Y, column 31 - X of the back buffer and
to no other pixel (spec/43_ports.md R236). -/
def Obligations.DrawResult : Prop :=
  ∀ (s : State) (rv : RegIx), 1 ≤ s.penX.toNat → 1 ≤ s.penY.toNat →
    ∃ t, exec (.ptSt rv 4#3) s = .next t ∧ PtStEffect s t 4#3 (s.readReg rv) ∧ SameMarquee s t ∧ SameNumber s t ∧
      t.report = .completed ∧ t.pixFront = s.pixFront ∧ t.pixLatch = s.pixLatch ∧ t.penX = s.penX ∧
      t.penY = s.penY ∧
      (∀ row col : Nat, row < 31 → col < 31 → t.pixBack.pixel row col =
        if row = 31 - s.penY.toNat ∧ col = 31 - s.penX.toNat then s.pixLatch else s.pixBack.pixel row col)

/-- Port 4 with a pending coordinate of 0: the instruction completes, no pixel changes, and the step reports the
coordinates (spec/43_ports.md R236, spec/60_exceptions.md R285, the spec's decision D23). -/
def Obligations.DrawOutOfRangeResult : Prop :=
  ∀ (s : State) (rv : RegIx), s.penX.toNat = 0 ∨ s.penY.toNat = 0 →
    ∃ t, exec (.ptSt rv 4#3) s = .next t ∧ PtStEffect s t 4#3 (s.readReg rv) ∧ SameScreen s t ∧ SameMarquee s t ∧
      SameNumber s t ∧ t.report = .screenError s.penX s.penY

/-- Ports 5, 6 and 7: the latch takes bit 0; the back buffer fills with the latch; the front buffer, which is what the
host's snapshot shows, takes a copy of the back buffer (spec/43_ports.md R237, R238, R239). -/
def Obligations.LatchFillCommitResult : Prop :=
  ∀ (s : State) (rv : RegIx),
    (∃ t, exec (.ptSt rv 5#3) s = .next t ∧ PtStEffect s t 5#3 (s.readReg rv) ∧ SameMarquee s t ∧ SameNumber s t ∧
      t.report = .completed ∧ t.pixBack = s.pixBack ∧ t.pixFront = s.pixFront ∧ t.penX = s.penX ∧
      t.penY = s.penY ∧ (t.pixLatch = true ↔ (s.readReg rv).toNat % 2 = 1)) ∧
    (∃ t, exec (.ptSt rv 6#3) s = .next t ∧ PtStEffect s t 6#3 (s.readReg rv) ∧ SameMarquee s t ∧ SameNumber s t ∧
      t.report = .completed ∧ t.pixFront = s.pixFront ∧ t.pixLatch = s.pixLatch ∧ t.penX = s.penX ∧
      t.penY = s.penY ∧
      (∀ row col : Nat, row < 31 → col < 31 → t.pixBack.pixel row col = s.pixLatch)) ∧
    (∃ t, exec (.ptSt rv 7#3) s = .next t ∧ PtStEffect s t 7#3 (s.readReg rv) ∧ SameMarquee s t ∧ SameNumber s t ∧
      t.report = .completed ∧ t.pixBack = s.pixBack ∧ t.pixLatch = s.pixLatch ∧ t.penX = s.penX ∧
      t.penY = s.penY ∧
      t.snapshot.frontBuffer = t.pixFront ∧
      (∀ row col : Nat, row < 31 → col < 31 → t.pixFront.pixel row col = s.pixBack.pixel row col))

/-- Read port 0: the controller packing, bits 15 to 8 clear, the momentary buttons consumed and the held ones kept, even
when the destination is R0 (spec/43_ports.md R241, R245, the spec's decision D18). -/
def Obligations.ControllerReadResult : Prop :=
  ∀ (s : State) (rd : RegIx), ∃ (t : State) (v : Word), exec (.ptLd rd 0#3) s = .next t ∧ PtLdEffect s t rd v ∧
    (∀ k, v.getLsbD k =
      ([s.buttons.up, s.buttons.right, s.buttons.down, s.buttons.left, s.buttons.select, s.buttons.start, s.buttons.y,
        s.buttons.x].getD k false)) ∧
    t.buttons = ⟨s.buttons.up, s.buttons.right, s.buttons.down, s.buttons.left, false, false, false, false⟩

/-- Read port 1 gives the value drawn before, and read ports 2 to 7 give 0; neither touches the controller
(spec/43_ports.md R242, R243, R245). The new noise value is the model's free value (log 2, the spec's decision D28). -/
def Obligations.NoiseAndUnusedReadResult : Prop :=
  ∀ (s : State) (rd : RegIx),
    (∃ t, exec (.ptLd rd 1#3) s = .next t ∧ PtLdEffect s t rd s.rand ∧ t.buttons = s.buttons ∧
      t.rand = Config.randDraw s.drawCount) ∧
    (∀ n : PortIx, 2 ≤ n.toNat →
      ∃ t, exec (.ptLd rd n) s = .next t ∧ PtLdEffect s t rd 0#16 ∧ t.buttons = s.buttons)

/-! Control transfer, NOP and HLT. -/

/-- JMP (spec/44_control.md R260): its encoding, PC at the target and nothing else; a target past the program makes
the next step an overrun, and a jump to its own index comes back to it. The overrun is a fault of the model (log 14; the
spec's decision D29), the new noise value its free value (log 2; D28). -/
def Obligations.JumpResult : Prop :=
  ∀ (s : State) (a : Addr), (encode (.jmp a)).toNat = a.toNat * 2 ^ 5 + 0b01100 ∧
    ∃ t, exec (.jmp a) s = .next t ∧ t.pc.toNat = a.toNat ∧ StackKept s t ∧ ControlEffect s t ∧
      t.rand = Config.randDraw s.drawCount ∧
      (s.imem.length ≤ a.toNat → step t = .fault (.overrun t.pc)) ∧ (s.pc.toNat = a.toNat → t.pc = s.pc)

/-- CAL (spec/44_control.md R261; the reduction of the return address is the spec's decision D8): the return address is
pushed, the oldest of more than 16 entries dropped. -/
def Obligations.CallResult : Prop :=
  ∀ (s : State) (a : Addr), ∃ (t : State) (ra : Word), exec (.cal a) s = .next t ∧ t.pc.toNat = a.toNat ∧
    ra.toNat = (s.pc.toNat + 1) % 2 ^ 16 ∧
    t.cs = (s.cs ++ [ra]).drop (s.cs.length + 1 - 16) ∧ ControlEffect s t

/-- RET (spec/44_control.md R262): the most recent entry is popped into PC; on an empty stack it faults and takes no
step (the spec's decision D7). -/
def Obligations.ReturnResult : Prop :=
  (∀ (s : State) (cs : List Word) (ra : Word), s.cs = cs ++ [ra] →
    ∃ t, exec .ret s = .next t ∧ t.pc = ra ∧ t.cs = last16 cs ∧ ControlEffect s t) ∧
  (∀ s : State, s.cs = [] → exec .ret s = .fault (.callStackUnderflow s.pc))

/-- The four branches: to the target when their own flag is set, else to the next instruction
(spec/44_control.md R263 to R266; the branch not taken is the spec's decision D4). -/
def Obligations.BranchResult : Prop :=
  ∀ (s : State) (a : Addr), ∀ p ∈ [(Instr.beq a, s.flags.beq), (.bne a, s.flags.bne), (.blt a, s.flags.blt),
      (.bgt a, s.flags.bgt)],
    ∃ t, exec p.1 s = .next t ∧ (p.2 = true → t.pc.toNat = a.toNat) ∧ (p.2 = false → Advanced s t) ∧
      StackKept s t ∧ ControlEffect s t

/-- A CAL followed at once by a RET comes back to one past the CAL's own index, with the call stack as it was but for an
entry the CAL pushed out (spec/44_control.md R261, R262; spec/10_state.md R34). -/
def Obligations.CallThenReturn : Prop :=
  ∀ (s : State) (a : Addr), ∃ t u, exec (.cal a) s = .next t ∧ exec .ret t = .next u ∧
    u.pc.toNat = (s.pc.toNat + 1) % 2 ^ 16 ∧ u.cs = s.cs.drop (s.cs.length - 15)

/-- Any number of CALs without RETs complete and leave the most recent 16 of the entries held and pushed
(spec/10_state.md R40, spec/44_control.md R261). -/
def Obligations.CallsKeepTheMostRecent16 : Prop :=
  ∀ (as : List Addr) (s : State), s.cs.length ≤ 16 →
    ∃ t, callAll as s = .next t ∧
      t.cs = (s.cs ++ returnAddresses s.pc as).drop (s.cs.length + as.length - 16)

/-- SUB into R0 compares: BEQ is taken exactly when the registers are equal; BLT and BGT match the signed order when the
true signed difference lies in -32768 to 32767 (spec/41_alu.md R200, the spec's inference). -/
def Obligations.CompareIdiom : Prop :=
  ∀ (s : State) (ra rb : RegIx), ∃ t, exec (.sub 0#5 ra rb) s = .next t ∧ RegsKept s t ∧
    (t.flags.beq = true ↔ s.readReg ra = s.readReg rb) ∧
    (-32768 ≤ (s.readReg ra).toInt - (s.readReg rb).toInt → (s.readReg ra).toInt - (s.readReg rb).toInt ≤ 32767 →
      (t.flags.blt = true ↔ (s.readReg ra).toInt < (s.readReg rb).toInt) ∧
      (t.flags.bgt = true ↔ (s.readReg rb).toInt < (s.readReg ra).toInt))

/-- NOP (spec/40_cycle_system.md R180): only PC advances and read port 1 is re-rolled, as the spec derives from its
completion (R175). The new noise value is the model's free value (log 2; the spec's decision D28). -/
def Obligations.NopResult : Prop :=
  encode .nop = 0x00000000#32 ∧
  ∀ s : State, ∃ t, exec .nop s = .next t ∧ RegsKept s t ∧ CellsKept s t ∧ t.flags = s.flags ∧ Advanced s t ∧
    StackKept s t ∧ SameDevices s t ∧ SameHost s t ∧ t.rand = Config.randDraw s.drawCount ∧ t.report = .completed

/-- HLT (spec/40_cycle_system.md R181, R182; the spec's decision D35): PC stays, the run state becomes Halted, and the
registers, cells, flags, devices and program stay. That the stop flag stays is the model's choice (log 28): R182 has
HLT clear "the flag itself" and names no flag. The new noise value is the model's free value (log 2; the spec's
decision D28). -/
def Obligations.HaltResult : Prop :=
  encode .hlt = 0x00000013#32 ∧
  ∀ s : State, ∃ t, exec .hlt s = .next t ∧ t.pc = s.pc ∧ t.runState = .halted ∧ t.report = .halted ∧
    RegsKept s t ∧ CellsKept s t ∧ t.flags = s.flags ∧ StackKept s t ∧ SameDevices s t ∧ t.imem = s.imem ∧
    t.source = s.source ∧ t.stopRequested = s.stopRequested ∧ t.speed = s.speed ∧
    t.rand = Config.randDraw s.drawCount

/-- A machine at a HLT halts again at every step, its PC where it was, however often it is stepped
(spec/40_cycle_system.md R181). -/
def Obligations.HaltRepeats : Prop :=
  ∀ (k : Nat) (s : State), s.imem[s.pc.toNat]? = some (encode .hlt) →
    ∃ t u, Sys2Proof.core.run k s = .next t ∧ stepOutcome t = .halted u ∧ u.pc = s.pc

/-- A step reports Halted exactly when the instruction at PC is HLT, and no other completed step changes the run state
(spec/40_cycle_system.md R176, R182). -/
def Obligations.OnlyHaltHalts : Prop :=
  (∀ s : State, (∃ t, stepOutcome s = .halted t) ↔ s.imem[s.pc.toNat]? = some (encode .hlt)) ∧
  (∀ s t : State, step s = .next t → t.runState ≠ s.runState → s.imem[s.pc.toNat]? = some (encode .hlt))

/-- A step reports a screen error exactly when the instruction at PC is a PT-ST to port 4 and a pending coordinate is
0; it names the pending coordinates (spec/40_cycle_system.md R176, spec/43_ports.md R236; the spec's decision D23). -/
def Obligations.OnlyDroppedPixelsReportScreenError : Prop :=
  ∀ (s : State) (x y : Coord), (∃ t, stepOutcome s = .screenError t x y) ↔
    (∃ rv, s.imem[s.pc.toNat]? = some (encode (.ptSt rv 4#3))) ∧
      (s.penX.toNat = 0 ∨ s.penY.toNat = 0) ∧ x = s.penX ∧ y = s.penY

/-- A run that ends normally ends at its first Halted outcome, with PC at a HLT and the noise value the draw of the
HLT's own completion; every step before it completed (spec/40_cycle_system.md R183; the spec's decision D26). -/
def Obligations.RunsEndAtHlt : Prop :=
  ∀ (fuel : Nat) (s t : State), runToHalt fuel s = some t →
    ∃ (k : Nat) (u : State), k < fuel ∧ Sys2Proof.core.run k s = .next u ∧ stepOutcome u = .halted t ∧
      t.imem = s.imem ∧ t.imem[t.pc.toNat]? = some (encode .hlt) ∧ t.pc = u.pc ∧
      t.rand = Config.randDraw u.drawCount ∧ t.runState = .halted ∧
      ∀ j < k, ∃ v w : State, Sys2Proof.core.run j s = .next v ∧ stepOutcome v = .completed w

/-! Invariants. -/

/-- The invariant of spec/10_state.md R53 (with the canonical form of memory, log 1) is kept by every step from every
state that has it (spec/40_cycle_system.md R178, the spec's inference). -/
def Obligations.StepKeepsInvariant : Prop := ∀ s t : State, s.Inv → step s = .next t → t.Inv

/-- The reset state has the invariant, whatever the two reset draws are (spec/10_state.md R52, R53). -/
def Obligations.ResetHasInvariant : Prop := State.reset.Inv

/-- Every sequence of host commands and run-loop iterations keeps the invariant: no error breaks it either
(spec/10_state.md R53, spec/60_exceptions.md R300 to R307). -/
def Obligations.EveryHostScheduleKeepsInvariant : Prop :=
  ∀ (es : List Event) (s : State), s.Inv → (events es s).Inv

/-- Reset leaves the values of the table of spec/10_state.md R52 and keeps the program; the flags are one of the three
legal states and the noise value is the next draw, which later draws follow: both are the model's free values
(logs 2, 3 and 6; the spec's decisions D5, D17, D19, D28, D33). -/
def Obligations.ResetValues : Prop :=
  ∀ s : State,
    let t := hostReset s
    (∀ i, t.readReg i = 0#16) ∧ (∀ a, t.readCell a = 0#16) ∧ t.pc = 0#16 ∧ t.cs = [] ∧
    (t.flags = Flags.ofClass .z ∨ t.flags = Flags.ofClass .n ∨ t.flags = Flags.ofClass .p) ∧
    (∀ n, t.readWP n = 0#16) ∧
    (∀ row col, t.pixBack.pixel row col = false ∧ t.pixFront.pixel row col = false) ∧
    t.pixLatch = false ∧ t.penX = 0#5 ∧ t.penY = 0#5 ∧
    (∀ j : Fin 11, t.mqStage[j] = 0#5 ∧ t.mqShown[j] = 0#5) ∧ t.mqCursor = 0 ∧ t.numShown = .blank ∧
    t.numDebug = 0#16 ∧ t.buttons = ⟨false, false, false, false, false, false, false, false⟩ ∧
    t.imem = s.imem ∧ t.runState = .idle ∧ t.stopRequested = false ∧
    t.rand = Config.randDraw s.drawCount ∧ t.drawCount = s.drawCount + 1

/-! The host interface. -/

/-- A fault or an overrun leaves the whole machine as it was; only the run state becomes Idle; an overrun hands PC to the
host (spec/60_exceptions.md R280, R284, R301; the spec's decision D25). -/
def Obligations.ErrorsLeaveTheStateUnchanged : Prop :=
  (∀ s : State, ((∃ pc, stepOutcome s = .overrun pc) ∨ ∃ f, stepOutcome s = .fault f) →
    (hostStep s).1 = { s with runState := .idle }) ∧
  (∀ (s : State) (pc : Word), stepOutcome s = .overrun pc ↔ s.imem.length ≤ s.pc.toNat ∧ pc = s.pc)

/-- The run loop: a requested stop ends the run before the next instruction; HLT ends it as Halted; an overrun, a fault
or a screen error ends it as Idle; a completed instruction leaves it running (spec/60_exceptions.md R302, R303). A host
step outside a run leaves Halted after HLT and Idle after a completed instruction or a screen error, and reports the
outcome with the snapshot after it (R301, R309). -/
def Obligations.RunLoopEnds : Prop :=
  (∀ s : State, s.runState = .running →
    (s.stopRequested = true → (tick s).1 = { s with runState := .idle }) ∧
    (s.stopRequested = false →
      (∀ t, stepOutcome s = .halted t → (tick s).1 = { t with runState := .halted }) ∧
      (∀ t x y, stepOutcome s = .screenError t x y → (tick s).1 = { t with runState := .idle }) ∧
      (∀ pc, stepOutcome s = .overrun pc → (tick s).1 = { s with runState := .idle }) ∧
      (∀ f, stepOutcome s = .fault f → (tick s).1 = { s with runState := .idle }) ∧
      (∀ t, stepOutcome s = .completed t → (tick s).1 = { t with runState := .running }))) ∧
  (∀ s : State, s.runState ≠ .running →
    (∀ t, stepOutcome s = .completed t → (command .step s).1 = { t with runState := .idle }) ∧
    (∀ t, stepOutcome s = .halted t → (command .step s).1 = { t with runState := .halted }) ∧
    (∀ t x y, stepOutcome s = .screenError t x y → (command .step s).1 = { t with runState := .idle })) ∧
  (∀ s : State, (command .step s).2 = .outcome (stepOutcome s) (command .step s).1.snapshot)

/-- The commands that only set something: `run` starts a run with the stop flag clear, `stop` sets the stop flag,
`set_speed` changes no machine state, `controller_input` sets all eight buttons
(spec/60_exceptions.md R302 to R305; the spec's decision D24). That `run` does the same during a run is the model's
choice (log 29). -/
def Obligations.HostCommandsSetTheirOwnState : Prop :=
  ∀ (s : State) (n : Nat) (b : Buttons),
    (command (.run n) s).1 = { s with runState := .running, stopRequested := false, speed := n } ∧
    (command .stop s).1 = { s with stopRequested := true } ∧
    (command (.setSpeed n) s).1 = { s with speed := n } ∧
    (command (.controllerInput b) s).1 = { s with buttons := b }

/-! The assembler and the program image. -/

/-- The text executor and the binary executor agree step for step on every program the encoder admits
(spec/40_cycle_system.md R179, the spec's inference). -/
def Obligations.TextAndBinaryExecutorsAgree : Prop :=
  ∀ (prog : List Line) (ws : List InstrWord), encodeLines prog = .ok ws →
    ∀ s : State, s.imem = ws → textStep prog s = liftResult (step s)

/-- The encoder fails on exactly the programs with a line that text decode refuses, and reports the first such line
(spec/30_encoding.md R142, R143). -/
def Obligations.EncoderFailsWhereTextDecodeFails : Prop :=
  ∀ prog : List Line,
    ((∃ ws, encodeLines prog = .ok ws) ↔ ∀ l ∈ prog, ∃ i, decodeLine l = .ok i) ∧
    (∀ e, encodeLines prog = .error e → ∃ before l after, prog = before ++ l :: after ∧
      (∀ k ∈ before, ∃ i, decodeLine k = .ok i) ∧ (∀ i, decodeLine l ≠ .ok i) ∧ e = .encoding l)

/-- Text decode admits exactly the operand lists of the right length whose operands have the right kind and fit their
field, with the shapes and the ranges of the spec (spec/30_encoding.md R131 to R133; the spec's decision D9). -/
def Obligations.OperandCheckIsExact : Prop :=
  (∀ (op : Opcode) (os : List Operand),
    (∃ vs, checkOperands op os = .ok vs) ↔ wellFormedOperands op os = true) ∧
  (∀ (k : OperandKind) (o : Operand), o.fits k = true ↔
    (k = .reg ∧ ∃ n, o = .reg n ∧ n < 32) ∨ (k = .port ∧ ∃ n, o = .port n ∧ n < 8) ∨
    (k = .imm16 ∧ ∃ n, o = .num n ∧ n < 65536) ∨ (k = .off8 ∧ ∃ n, o = .num n ∧ n < 256) ∨
    (k = .addr11 ∧ ∃ n, o = .num n ∧ n < 2048)) ∧
  (∀ op ∈ [Opcode.nop, .ret, .hlt], op.shape = []) ∧
  (∀ op ∈ [Opcode.add, .sub, .xor, .or, .and], op.shape = [.reg, .reg, .reg]) ∧
  Opcode.rsh.shape = [.reg, .reg] ∧ Opcode.adi.shape = [.reg, .reg, .imm16] ∧
  (∀ op ∈ [Opcode.st, .ld], op.shape = [.reg, .reg, .off8]) ∧
  (∀ op ∈ [Opcode.ptSt, .ptLd], op.shape = [.reg, .port]) ∧
  (∀ op ∈ [Opcode.jmp, .cal, .beq, .bne, .blt, .bgt], op.shape = [.addr11])

/-- A binary program written from words loads back to the same words, and the loader takes exactly the images of at most
2048 lines of 32 characters 0 or 1 (spec/30_encoding.md R114; the spec's decision D2). -/
def Obligations.BinaryProgramLoadsBack : Prop :=
  (∀ ws : List InstrWord, ws.length ≤ 2048 → loadImage (binaryProgram ws) = .ok ws) ∧
  (∀ ls : List Line, (∃ ws, loadImage ls = .ok ws) ↔ wellFormedImage ls = true) ∧
  (∀ (ls : List Line) (ws : List InstrWord), loadImage ls = .ok ws → binaryProgram ws = ls)

/-- The address of a label is the number of instruction lines before its label line, which is the index in the final
list of the instruction it annotates, or the index past the end; and the final list holds, at that index, the tokens of
that instruction's line with their labels resolved (spec/30_encoding.md R126, R127). -/
def Obligations.LabelsPointIntoTheProgram : Prop :=
  ∀ (ls out : List Line) (labels : List (Token × Nat)), extractLabels 0 [] ls = .ok labels →
    resolveLabels labels ls = .ok out →
    (∀ p ∈ labels, p.2 ≤ out.length) ∧ out.length = (ls.filter instructionLine).length ∧
    (∀ (before after : List Line) (l : Line) (t : Token) (ts : List Token), ls = before ++ l :: after →
      tokenize l = t :: ts → startsWithDot t = true →
      lookupName t labels = some (before.filter instructionLine).length) ∧
    (∀ (before after : List Line) (l : Line), ls = before ++ l :: after → instructionLine l = true →
      ∃ op args r, withoutLabel (tokenize l) = op :: args ∧ resolveOperands labels l args = .ok r ∧
        out[(before.filter instructionLine).length]? = some (joinTokens (op :: r)))
end

