-- ==== Sys2Proof/Laws/Encoding.lean ====
section
/-! SUPPORT. The fields and the fixed bits of the nine formats. -/

namespace Sys2Proof

/-- A field read from a word, bit by bit. -/
theorem field_getElem (w : InstrWord) (lo n i : Nat) (h : i < n) : (field w lo n)[i] = w.getLsbD (lo + i) := by
  simp [field]

/-- A placed field, bit by bit. -/
theorem place_getElem {n : Nat} (v : BitVec n) (lo i : Nat) (h : i < 32) :
    (place v lo)[i] = (decide (lo ≤ i) && v.getLsbD (i - lo)) := by
  by_cases h1 : lo ≤ i
  · simp [place, h1, Nat.not_lt.mpr]
  · simp [place, h1, Nat.lt_of_not_le]

theorem encodeN_mask (c : BitVec 5) :
    encodeN c &&& Format.N.mask = c.setWidth 32 := by
  apply BitVec.eq_of_getLsbD_eq
  intro i hi
  interval_cases i <;> simp [encodeN, Format.mask, place_getElem]

@[simp] theorem encodeN_op (c : BitVec 5) : field (encodeN c) 0 5 = c := by
  apply BitVec.eq_of_getLsbD_eq
  intro i hi
  interval_cases i <;> simp [encodeN, field_getElem, place_getElem]

theorem encodeR3_mask (c : BitVec 5) (rd rs1 rs2 : RegIx) :
    encodeR3 c rd rs1 rs2 &&& Format.R3.mask = c.setWidth 32 := by
  apply BitVec.eq_of_getLsbD_eq
  intro i hi
  interval_cases i <;> simp [encodeR3, Format.mask, place_getElem]

@[simp] theorem encodeR3_op (c : BitVec 5) (rd rs1 rs2 : RegIx) : field (encodeR3 c rd rs1 rs2) 0 5 = c := by
  apply BitVec.eq_of_getLsbD_eq
  intro i hi
  interval_cases i <;> simp [encodeR3, field_getElem, place_getElem]

@[simp] theorem encodeR3_rd (c : BitVec 5) (rd rs1 rs2 : RegIx) : field (encodeR3 c rd rs1 rs2) 5 5 = rd := by
  apply BitVec.eq_of_getLsbD_eq
  intro i hi
  interval_cases i <;> simp [encodeR3, field_getElem, place_getElem]

@[simp] theorem encodeR3_rs1 (c : BitVec 5) (rd rs1 rs2 : RegIx) : field (encodeR3 c rd rs1 rs2) 10 5 = rs1 := by
  apply BitVec.eq_of_getLsbD_eq
  intro i hi
  interval_cases i <;> simp [encodeR3, field_getElem, place_getElem]

@[simp] theorem encodeR3_rs2 (c : BitVec 5) (rd rs1 rs2 : RegIx) : field (encodeR3 c rd rs1 rs2) 15 5 = rs2 := by
  apply BitVec.eq_of_getLsbD_eq
  intro i hi
  interval_cases i <;> simp [encodeR3, field_getElem, place_getElem]

theorem encodeR2_mask (c : BitVec 5) (rd rs : RegIx) :
    encodeR2 c rd rs &&& Format.R2.mask = c.setWidth 32 := by
  apply BitVec.eq_of_getLsbD_eq
  intro i hi
  interval_cases i <;> simp [encodeR2, Format.mask, place_getElem]

@[simp] theorem encodeR2_op (c : BitVec 5) (rd rs : RegIx) : field (encodeR2 c rd rs) 0 5 = c := by
  apply BitVec.eq_of_getLsbD_eq
  intro i hi
  interval_cases i <;> simp [encodeR2, field_getElem, place_getElem]

@[simp] theorem encodeR2_rd (c : BitVec 5) (rd rs : RegIx) : field (encodeR2 c rd rs) 5 5 = rd := by
  apply BitVec.eq_of_getLsbD_eq
  intro i hi
  interval_cases i <;> simp [encodeR2, field_getElem, place_getElem]

@[simp] theorem encodeR2_rs (c : BitVec 5) (rd rs : RegIx) : field (encodeR2 c rd rs) 10 5 = rs := by
  apply BitVec.eq_of_getLsbD_eq
  intro i hi
  interval_cases i <;> simp [encodeR2, field_getElem, place_getElem]

theorem encodeI_mask (c : BitVec 5) (rd rs : RegIx) (imm : Imm) :
    encodeI c rd rs imm &&& Format.I.mask = c.setWidth 32 := by
  apply BitVec.eq_of_getLsbD_eq
  intro i hi
  interval_cases i <;> simp [encodeI, Format.mask, place_getElem]

@[simp] theorem encodeI_op (c : BitVec 5) (rd rs : RegIx) (imm : Imm) : field (encodeI c rd rs imm) 0 5 = c := by
  apply BitVec.eq_of_getLsbD_eq
  intro i hi
  interval_cases i <;> simp [encodeI, field_getElem, place_getElem]

@[simp] theorem encodeI_rd (c : BitVec 5) (rd rs : RegIx) (imm : Imm) : field (encodeI c rd rs imm) 5 5 = rd := by
  apply BitVec.eq_of_getLsbD_eq
  intro i hi
  interval_cases i <;> simp [encodeI, field_getElem, place_getElem]

@[simp] theorem encodeI_rs (c : BitVec 5) (rd rs : RegIx) (imm : Imm) : field (encodeI c rd rs imm) 10 5 = rs := by
  apply BitVec.eq_of_getLsbD_eq
  intro i hi
  interval_cases i <;> simp [encodeI, field_getElem, place_getElem]

@[simp] theorem encodeI_imm (c : BitVec 5) (rd rs : RegIx) (imm : Imm) : field (encodeI c rd rs imm) 15 16 = imm := by
  apply BitVec.eq_of_getLsbD_eq
  intro i hi
  interval_cases i <;> simp [encodeI, field_getElem, place_getElem]

theorem encodeS_mask (c : BitVec 5) (rv rb : RegIx) (off : Offset) :
    encodeS c rv rb off &&& Format.S.mask = c.setWidth 32 := by
  apply BitVec.eq_of_getLsbD_eq
  intro i hi
  interval_cases i <;> simp [encodeS, Format.mask, place_getElem]

@[simp] theorem encodeS_op (c : BitVec 5) (rv rb : RegIx) (off : Offset) : field (encodeS c rv rb off) 0 5 = c := by
  apply BitVec.eq_of_getLsbD_eq
  intro i hi
  interval_cases i <;> simp [encodeS, field_getElem, place_getElem]

@[simp] theorem encodeS_rv (c : BitVec 5) (rv rb : RegIx) (off : Offset) : field (encodeS c rv rb off) 10 5 = rv := by
  apply BitVec.eq_of_getLsbD_eq
  intro i hi
  interval_cases i <;> simp [encodeS, field_getElem, place_getElem]

@[simp] theorem encodeS_rb (c : BitVec 5) (rv rb : RegIx) (off : Offset) : field (encodeS c rv rb off) 15 5 = rb := by
  apply BitVec.eq_of_getLsbD_eq
  intro i hi
  interval_cases i <;> simp [encodeS, field_getElem, place_getElem]

@[simp] theorem encodeS_off (c : BitVec 5) (rv rb : RegIx) (off : Offset) : field (encodeS c rv rb off) 20 8 = off := by
  apply BitVec.eq_of_getLsbD_eq
  intro i hi
  interval_cases i <;> simp [encodeS, field_getElem, place_getElem]

theorem encodeL_mask (c : BitVec 5) (rd rb : RegIx) (off : Offset) :
    encodeL c rd rb off &&& Format.L.mask = c.setWidth 32 := by
  apply BitVec.eq_of_getLsbD_eq
  intro i hi
  interval_cases i <;> simp [encodeL, Format.mask, place_getElem]

@[simp] theorem encodeL_op (c : BitVec 5) (rd rb : RegIx) (off : Offset) : field (encodeL c rd rb off) 0 5 = c := by
  apply BitVec.eq_of_getLsbD_eq
  intro i hi
  interval_cases i <;> simp [encodeL, field_getElem, place_getElem]

@[simp] theorem encodeL_rd (c : BitVec 5) (rd rb : RegIx) (off : Offset) : field (encodeL c rd rb off) 5 5 = rd := by
  apply BitVec.eq_of_getLsbD_eq
  intro i hi
  interval_cases i <;> simp [encodeL, field_getElem, place_getElem]

@[simp] theorem encodeL_rb (c : BitVec 5) (rd rb : RegIx) (off : Offset) : field (encodeL c rd rb off) 15 5 = rb := by
  apply BitVec.eq_of_getLsbD_eq
  intro i hi
  interval_cases i <;> simp [encodeL, field_getElem, place_getElem]

@[simp] theorem encodeL_off (c : BitVec 5) (rd rb : RegIx) (off : Offset) : field (encodeL c rd rb off) 20 8 = off := by
  apply BitVec.eq_of_getLsbD_eq
  intro i hi
  interval_cases i <;> simp [encodeL, field_getElem, place_getElem]

theorem encodePS_mask (c : BitVec 5) (rv : RegIx) (port : PortIx) :
    encodePS c rv port &&& Format.PS.mask = c.setWidth 32 := by
  apply BitVec.eq_of_getLsbD_eq
  intro i hi
  interval_cases i <;> simp [encodePS, Format.mask, place_getElem]

@[simp] theorem encodePS_op (c : BitVec 5) (rv : RegIx) (port : PortIx) : field (encodePS c rv port) 0 5 = c := by
  apply BitVec.eq_of_getLsbD_eq
  intro i hi
  interval_cases i <;> simp [encodePS, field_getElem, place_getElem]

@[simp] theorem encodePS_rv (c : BitVec 5) (rv : RegIx) (port : PortIx) : field (encodePS c rv port) 10 5 = rv := by
  apply BitVec.eq_of_getLsbD_eq
  intro i hi
  interval_cases i <;> simp [encodePS, field_getElem, place_getElem]

@[simp] theorem encodePS_port (c : BitVec 5) (rv : RegIx) (port : PortIx) : field (encodePS c rv port) 15 3 = port := by
  apply BitVec.eq_of_getLsbD_eq
  intro i hi
  interval_cases i <;> simp [encodePS, field_getElem, place_getElem]

theorem encodePL_mask (c : BitVec 5) (rd : RegIx) (port : PortIx) :
    encodePL c rd port &&& Format.PL.mask = c.setWidth 32 := by
  apply BitVec.eq_of_getLsbD_eq
  intro i hi
  interval_cases i <;> simp [encodePL, Format.mask, place_getElem]

@[simp] theorem encodePL_op (c : BitVec 5) (rd : RegIx) (port : PortIx) : field (encodePL c rd port) 0 5 = c := by
  apply BitVec.eq_of_getLsbD_eq
  intro i hi
  interval_cases i <;> simp [encodePL, field_getElem, place_getElem]

@[simp] theorem encodePL_rd (c : BitVec 5) (rd : RegIx) (port : PortIx) : field (encodePL c rd port) 5 5 = rd := by
  apply BitVec.eq_of_getLsbD_eq
  intro i hi
  interval_cases i <;> simp [encodePL, field_getElem, place_getElem]

@[simp] theorem encodePL_port (c : BitVec 5) (rd : RegIx) (port : PortIx) : field (encodePL c rd port) 18 3 = port := by
  apply BitVec.eq_of_getLsbD_eq
  intro i hi
  interval_cases i <;> simp [encodePL, field_getElem, place_getElem]

theorem encodeJ_mask (c : BitVec 5) (addr : Addr) :
    encodeJ c addr &&& Format.J.mask = c.setWidth 32 := by
  apply BitVec.eq_of_getLsbD_eq
  intro i hi
  interval_cases i <;> simp [encodeJ, Format.mask, place_getElem]

@[simp] theorem encodeJ_op (c : BitVec 5) (addr : Addr) : field (encodeJ c addr) 0 5 = c := by
  apply BitVec.eq_of_getLsbD_eq
  intro i hi
  interval_cases i <;> simp [encodeJ, field_getElem, place_getElem]

@[simp] theorem encodeJ_addr (c : BitVec 5) (addr : Addr) : field (encodeJ c addr) 5 11 = addr := by
  apply BitVec.eq_of_getLsbD_eq
  intro i hi
  interval_cases i <;> simp [encodeJ, field_getElem, place_getElem]

end Sys2Proof
end

