-- ==== Sys2Proof/Laws/Memory.lean ====
section
/-! SUPPORT. The laws of data memory: read after write, the frame of a write, and the canonical form. -/

namespace Sys2Proof.Machine

theorem Memory.read_insert_same (m : Memory) (a : Nat) (v : Word) (h : ∀ c ∈ m, c.1 ≠ a) :
    Memory.read (Memory.insert m a v) a = v := by
  induction m with
  | nil => simp [Memory.insert, Memory.read]
  | cons c m ih =>
    obtain ⟨b, w⟩ := c
    have hb : b ≠ a := h (b, w) (by simp)
    have hm : ∀ c ∈ m, c.1 ≠ a := fun c hc => h c (by simp [hc])
    by_cases hlt : a < b <;> simp [Memory.insert, Memory.read, hlt, hb, ih hm]

theorem Memory.read_insert_other (m : Memory) (a b : Nat) (v : Word) (h : b ≠ a) :
    Memory.read (Memory.insert m a v) b = Memory.read m b := by
  induction m with
  | nil => simp [Memory.insert, Memory.read, Ne.symm h]
  | cons c m ih =>
    obtain ⟨k, w⟩ := c
    by_cases hlt : a < k <;> simp [Memory.insert, Memory.read, hlt, ih, Ne.symm h]

theorem Memory.read_filter_same (m : Memory) (a : Nat) :
    Memory.read (m.filter (fun c => c.1 ≠ a)) a = 0#16 := by
  induction m with
  | nil => rfl
  | cons c m ih =>
    by_cases h : c.1 = a
    · simpa [h] using ih
    · simpa [h, Memory.read] using ih

theorem Memory.read_filter_other (m : Memory) (a b : Nat) (h : b ≠ a) :
    Memory.read (m.filter (fun c => c.1 ≠ a)) b = Memory.read m b := by
  induction m with
  | nil => rfl
  | cons c m ih =>
    by_cases hc : c.1 = a
    · have hb : c.1 ≠ b := fun e => h (e.symm.trans hc)
      simpa [hc, Memory.read, Ne.symm h] using ih
    · by_cases hb : c.1 = b
      · simp [Memory.read, hb, h]
      · simpa [hc, Memory.read, hb] using ih

/-- What a read gives after a write, for every memory, canonical or not. -/
theorem Memory.read_write (m : Memory) (a b : Nat) (v : Word) :
    Memory.read (Memory.write m a v) b = if b = a then v else Memory.read m b := by
  have hf : ∀ c ∈ m.filter (fun c => c.1 ≠ a), c.1 ≠ a := by simp
  by_cases hb : b = a
  · subst hb
    by_cases hv : v = 0#16
    · simpa [Memory.write, hv] using Memory.read_filter_same m b
    · simpa [Memory.write, hv] using Memory.read_insert_same _ b v hf
  · by_cases hv : v = 0#16
    · simpa [Memory.write, hv, hb] using Memory.read_filter_other m a b hb
    · rw [if_neg hb, ← Memory.read_filter_other m a b hb]
      simpa [Memory.write, hv] using Memory.read_insert_other (m.filter (fun c => c.1 ≠ a)) a b v hb

theorem Memory.risingFrom_mono {lo lo' : Nat} (h : lo' ≤ lo) {m : Memory} (hm : Memory.risingFrom lo m = true) :
    Memory.risingFrom lo' m = true := by
  cases m with
  | nil => rfl
  | cons c m =>
    simp only [Memory.risingFrom, Bool.and_eq_true, decide_eq_true_eq] at hm ⊢
    exact ⟨⟨h.trans hm.1.1, hm.1.2⟩, hm.2⟩

theorem Memory.risingFrom_filter {lo : Nat} {m : Memory} (p : Nat × Word → Bool)
    (hm : Memory.risingFrom lo m = true) : Memory.risingFrom lo (m.filter p) = true := by
  induction m generalizing lo with
  | nil => rfl
  | cons c m ih =>
    simp only [Memory.risingFrom, Bool.and_eq_true, decide_eq_true_eq] at hm
    have := ih hm.2
    by_cases hp : p c = true
    · simp [hp, Memory.risingFrom, hm.1.1, hm.1.2, this]
    · simp only [List.filter_cons_of_neg hp]
      exact Memory.risingFrom_mono (by omega) this

theorem Memory.risingFrom_insert {lo a : Nat} {v : Word} {m : Memory} (hlo : lo ≤ a) (hv : v ≠ 0#16)
    (hne : ∀ c ∈ m, c.1 ≠ a) (hm : Memory.risingFrom lo m = true) :
    Memory.risingFrom lo (Memory.insert m a v) = true := by
  induction m generalizing lo with
  | nil => simp [Memory.insert, Memory.risingFrom, hlo, hv]
  | cons c m ih =>
    obtain ⟨b, w⟩ := c
    have hb : b ≠ a := hne (b, w) (by simp)
    simp only [Memory.risingFrom, Bool.and_eq_true, decide_eq_true_eq] at hm
    by_cases hlt : a < b
    · have : a + 1 ≤ b := hlt
      simp [Memory.insert, hlt, Memory.risingFrom, hlo, hv, hm.1.2, hm.2, this]
    · have hba : b + 1 ≤ a := by omega
      have := ih hba (fun c hc => hne c (by simp [hc])) hm.2
      simp [Memory.insert, hlt, Memory.risingFrom, hm.1.1, hm.1.2, this]

theorem Memory.all_insert (p : Nat × Word → Bool) (m : Memory) (a : Nat) (v : Word) :
    (Memory.insert m a v).all p = (p (a, v) && m.all p) := by
  induction m with
  | nil => simp [Memory.insert]
  | cons c m ih =>
    obtain ⟨b, w⟩ := c
    by_cases hlt : a < b
    · simp [Memory.insert, hlt]
    · simp [Memory.insert, hlt, ih, Bool.and_left_comm]

/-- A write to a cell that exists keeps the canonical form. -/
theorem Memory.write_wf {m : Memory} {a : Nat} {v : Word} (h : Memory.wf m = true) (ha : a < Config.dataCells) :
    Memory.wf (Memory.write m a v) = true := by
  simp only [Memory.wf, Bool.and_eq_true] at h ⊢
  have hr : Memory.risingFrom 0 (m.filter (fun c => c.1 ≠ a)) = true := Memory.risingFrom_filter _ h.1
  have hall : (m.filter (fun c => c.1 ≠ a)).all (fun c => decide (c.1 < Config.dataCells)) = true := by
    rw [List.all_eq_true] at h ⊢
    exact fun c hc => h.2 c (List.mem_of_mem_filter hc)
  by_cases hv : v = 0#16
  · simpa [Memory.write, hv] using And.intro hr hall
  · have hne : ∀ c ∈ m.filter (fun c => c.1 ≠ a), c.1 ≠ a := by simp
    have h1 := Memory.risingFrom_insert (Nat.zero_le a) hv hne hr
    have h2 := Memory.all_insert (fun c => decide (c.1 < Config.dataCells)) (m.filter (fun c => c.1 ≠ a)) a v
    rw [hall] at h2
    simp only [Memory.write, hv, if_false]
    exact ⟨h1, by simpa [ha] using h2⟩

/-- The memory of the reset state is canonical. -/
theorem Memory.wf_nil : Memory.wf [] = true := rfl

end Sys2Proof.Machine
end

