-- ==== Sys2Proof/Laws/State.lean ====
section
/-! SUPPORT. One lemma per field per update of the state, each true by unfolding the update once. -/

namespace Sys2Proof.Machine

@[simp] theorem State.writeReg_x (s : State) (i : RegIx) (v : Word) : (s.writeReg i v).x = s.x.set i.toNat v i.isLt := rfl
@[simp] theorem State.writeReg_dmem (s : State) (i : RegIx) (v : Word) : (s.writeReg i v).dmem = s.dmem := rfl
@[simp] theorem State.writeReg_pc (s : State) (i : RegIx) (v : Word) : (s.writeReg i v).pc = s.pc := rfl
@[simp] theorem State.writeReg_flags (s : State) (i : RegIx) (v : Word) : (s.writeReg i v).flags = s.flags := rfl
@[simp] theorem State.writeReg_cs (s : State) (i : RegIx) (v : Word) : (s.writeReg i v).cs = s.cs := rfl
@[simp] theorem State.writeReg_wp (s : State) (i : RegIx) (v : Word) : (s.writeReg i v).wp = s.wp := rfl
@[simp] theorem State.writeReg_rand (s : State) (i : RegIx) (v : Word) : (s.writeReg i v).rand = s.rand := rfl
@[simp] theorem State.writeReg_pixBack (s : State) (i : RegIx) (v : Word) : (s.writeReg i v).pixBack = s.pixBack := rfl
@[simp] theorem State.writeReg_pixFront (s : State) (i : RegIx) (v : Word) : (s.writeReg i v).pixFront = s.pixFront := rfl
@[simp] theorem State.writeReg_pixLatch (s : State) (i : RegIx) (v : Word) : (s.writeReg i v).pixLatch = s.pixLatch := rfl
@[simp] theorem State.writeReg_penX (s : State) (i : RegIx) (v : Word) : (s.writeReg i v).penX = s.penX := rfl
@[simp] theorem State.writeReg_penY (s : State) (i : RegIx) (v : Word) : (s.writeReg i v).penY = s.penY := rfl
@[simp] theorem State.writeReg_mqStage (s : State) (i : RegIx) (v : Word) : (s.writeReg i v).mqStage = s.mqStage := rfl
@[simp] theorem State.writeReg_mqShown (s : State) (i : RegIx) (v : Word) : (s.writeReg i v).mqShown = s.mqShown := rfl
@[simp] theorem State.writeReg_mqCursor (s : State) (i : RegIx) (v : Word) : (s.writeReg i v).mqCursor = s.mqCursor := rfl
@[simp] theorem State.writeReg_numShown (s : State) (i : RegIx) (v : Word) : (s.writeReg i v).numShown = s.numShown := rfl
@[simp] theorem State.writeReg_numDebug (s : State) (i : RegIx) (v : Word) : (s.writeReg i v).numDebug = s.numDebug := rfl
@[simp] theorem State.writeReg_buttons (s : State) (i : RegIx) (v : Word) : (s.writeReg i v).buttons = s.buttons := rfl
@[simp] theorem State.writeReg_imem (s : State) (i : RegIx) (v : Word) : (s.writeReg i v).imem = s.imem := rfl
@[simp] theorem State.writeReg_source (s : State) (i : RegIx) (v : Word) : (s.writeReg i v).source = s.source := rfl
@[simp] theorem State.writeReg_runState (s : State) (i : RegIx) (v : Word) : (s.writeReg i v).runState = s.runState := rfl
@[simp] theorem State.writeReg_stopRequested (s : State) (i : RegIx) (v : Word) : (s.writeReg i v).stopRequested = s.stopRequested := rfl
@[simp] theorem State.writeReg_speed (s : State) (i : RegIx) (v : Word) : (s.writeReg i v).speed = s.speed := rfl
@[simp] theorem State.writeReg_report (s : State) (i : RegIx) (v : Word) : (s.writeReg i v).report = s.report := rfl
@[simp] theorem State.writeReg_drawCount (s : State) (i : RegIx) (v : Word) : (s.writeReg i v).drawCount = s.drawCount := rfl
@[simp] theorem State.writeReg_readCell (s : State) (i : RegIx) (v : Word) (k : Nat) : (s.writeReg i v).readCell k = s.readCell k := rfl

@[simp] theorem State.setFlags_x (s : State) (f : Flags) : (s.setFlags f).x = s.x := rfl
@[simp] theorem State.setFlags_dmem (s : State) (f : Flags) : (s.setFlags f).dmem = s.dmem := rfl
@[simp] theorem State.setFlags_pc (s : State) (f : Flags) : (s.setFlags f).pc = s.pc := rfl
@[simp] theorem State.setFlags_flags (s : State) (f : Flags) : (s.setFlags f).flags = f := rfl
@[simp] theorem State.setFlags_cs (s : State) (f : Flags) : (s.setFlags f).cs = s.cs := rfl
@[simp] theorem State.setFlags_wp (s : State) (f : Flags) : (s.setFlags f).wp = s.wp := rfl
@[simp] theorem State.setFlags_rand (s : State) (f : Flags) : (s.setFlags f).rand = s.rand := rfl
@[simp] theorem State.setFlags_pixBack (s : State) (f : Flags) : (s.setFlags f).pixBack = s.pixBack := rfl
@[simp] theorem State.setFlags_pixFront (s : State) (f : Flags) : (s.setFlags f).pixFront = s.pixFront := rfl
@[simp] theorem State.setFlags_pixLatch (s : State) (f : Flags) : (s.setFlags f).pixLatch = s.pixLatch := rfl
@[simp] theorem State.setFlags_penX (s : State) (f : Flags) : (s.setFlags f).penX = s.penX := rfl
@[simp] theorem State.setFlags_penY (s : State) (f : Flags) : (s.setFlags f).penY = s.penY := rfl
@[simp] theorem State.setFlags_mqStage (s : State) (f : Flags) : (s.setFlags f).mqStage = s.mqStage := rfl
@[simp] theorem State.setFlags_mqShown (s : State) (f : Flags) : (s.setFlags f).mqShown = s.mqShown := rfl
@[simp] theorem State.setFlags_mqCursor (s : State) (f : Flags) : (s.setFlags f).mqCursor = s.mqCursor := rfl
@[simp] theorem State.setFlags_numShown (s : State) (f : Flags) : (s.setFlags f).numShown = s.numShown := rfl
@[simp] theorem State.setFlags_numDebug (s : State) (f : Flags) : (s.setFlags f).numDebug = s.numDebug := rfl
@[simp] theorem State.setFlags_buttons (s : State) (f : Flags) : (s.setFlags f).buttons = s.buttons := rfl
@[simp] theorem State.setFlags_imem (s : State) (f : Flags) : (s.setFlags f).imem = s.imem := rfl
@[simp] theorem State.setFlags_source (s : State) (f : Flags) : (s.setFlags f).source = s.source := rfl
@[simp] theorem State.setFlags_runState (s : State) (f : Flags) : (s.setFlags f).runState = s.runState := rfl
@[simp] theorem State.setFlags_stopRequested (s : State) (f : Flags) : (s.setFlags f).stopRequested = s.stopRequested := rfl
@[simp] theorem State.setFlags_speed (s : State) (f : Flags) : (s.setFlags f).speed = s.speed := rfl
@[simp] theorem State.setFlags_report (s : State) (f : Flags) : (s.setFlags f).report = s.report := rfl
@[simp] theorem State.setFlags_drawCount (s : State) (f : Flags) : (s.setFlags f).drawCount = s.drawCount := rfl
@[simp] theorem State.setFlags_readReg (s : State) (f : Flags) (j : RegIx) : (s.setFlags f).readReg j = s.readReg j := rfl
@[simp] theorem State.setFlags_readCell (s : State) (f : Flags) (k : Nat) : (s.setFlags f).readCell k = s.readCell k := rfl

@[simp] theorem State.writeCell_x (s : State) (a : Nat) (v : Word) : (s.writeCell a v).x = s.x := rfl
@[simp] theorem State.writeCell_dmem (s : State) (a : Nat) (v : Word) : (s.writeCell a v).dmem = Memory.write s.dmem a v := rfl
@[simp] theorem State.writeCell_pc (s : State) (a : Nat) (v : Word) : (s.writeCell a v).pc = s.pc := rfl
@[simp] theorem State.writeCell_flags (s : State) (a : Nat) (v : Word) : (s.writeCell a v).flags = s.flags := rfl
@[simp] theorem State.writeCell_cs (s : State) (a : Nat) (v : Word) : (s.writeCell a v).cs = s.cs := rfl
@[simp] theorem State.writeCell_wp (s : State) (a : Nat) (v : Word) : (s.writeCell a v).wp = s.wp := rfl
@[simp] theorem State.writeCell_rand (s : State) (a : Nat) (v : Word) : (s.writeCell a v).rand = s.rand := rfl
@[simp] theorem State.writeCell_pixBack (s : State) (a : Nat) (v : Word) : (s.writeCell a v).pixBack = s.pixBack := rfl
@[simp] theorem State.writeCell_pixFront (s : State) (a : Nat) (v : Word) : (s.writeCell a v).pixFront = s.pixFront := rfl
@[simp] theorem State.writeCell_pixLatch (s : State) (a : Nat) (v : Word) : (s.writeCell a v).pixLatch = s.pixLatch := rfl
@[simp] theorem State.writeCell_penX (s : State) (a : Nat) (v : Word) : (s.writeCell a v).penX = s.penX := rfl
@[simp] theorem State.writeCell_penY (s : State) (a : Nat) (v : Word) : (s.writeCell a v).penY = s.penY := rfl
@[simp] theorem State.writeCell_mqStage (s : State) (a : Nat) (v : Word) : (s.writeCell a v).mqStage = s.mqStage := rfl
@[simp] theorem State.writeCell_mqShown (s : State) (a : Nat) (v : Word) : (s.writeCell a v).mqShown = s.mqShown := rfl
@[simp] theorem State.writeCell_mqCursor (s : State) (a : Nat) (v : Word) : (s.writeCell a v).mqCursor = s.mqCursor := rfl
@[simp] theorem State.writeCell_numShown (s : State) (a : Nat) (v : Word) : (s.writeCell a v).numShown = s.numShown := rfl
@[simp] theorem State.writeCell_numDebug (s : State) (a : Nat) (v : Word) : (s.writeCell a v).numDebug = s.numDebug := rfl
@[simp] theorem State.writeCell_buttons (s : State) (a : Nat) (v : Word) : (s.writeCell a v).buttons = s.buttons := rfl
@[simp] theorem State.writeCell_imem (s : State) (a : Nat) (v : Word) : (s.writeCell a v).imem = s.imem := rfl
@[simp] theorem State.writeCell_source (s : State) (a : Nat) (v : Word) : (s.writeCell a v).source = s.source := rfl
@[simp] theorem State.writeCell_runState (s : State) (a : Nat) (v : Word) : (s.writeCell a v).runState = s.runState := rfl
@[simp] theorem State.writeCell_stopRequested (s : State) (a : Nat) (v : Word) : (s.writeCell a v).stopRequested = s.stopRequested := rfl
@[simp] theorem State.writeCell_speed (s : State) (a : Nat) (v : Word) : (s.writeCell a v).speed = s.speed := rfl
@[simp] theorem State.writeCell_report (s : State) (a : Nat) (v : Word) : (s.writeCell a v).report = s.report := rfl
@[simp] theorem State.writeCell_drawCount (s : State) (a : Nat) (v : Word) : (s.writeCell a v).drawCount = s.drawCount := rfl
@[simp] theorem State.writeCell_readReg (s : State) (a : Nat) (v : Word) (j : RegIx) : (s.writeCell a v).readReg j = s.readReg j := rfl

@[simp] theorem State.push_x (s : State) (v : Word) : (s.push v).x = s.x := rfl
@[simp] theorem State.push_dmem (s : State) (v : Word) : (s.push v).dmem = s.dmem := rfl
@[simp] theorem State.push_pc (s : State) (v : Word) : (s.push v).pc = s.pc := rfl
@[simp] theorem State.push_flags (s : State) (v : Word) : (s.push v).flags = s.flags := rfl
@[simp] theorem State.push_cs (s : State) (v : Word) : (s.push v).cs = s.cs ++ [v] := rfl
@[simp] theorem State.push_wp (s : State) (v : Word) : (s.push v).wp = s.wp := rfl
@[simp] theorem State.push_rand (s : State) (v : Word) : (s.push v).rand = s.rand := rfl
@[simp] theorem State.push_pixBack (s : State) (v : Word) : (s.push v).pixBack = s.pixBack := rfl
@[simp] theorem State.push_pixFront (s : State) (v : Word) : (s.push v).pixFront = s.pixFront := rfl
@[simp] theorem State.push_pixLatch (s : State) (v : Word) : (s.push v).pixLatch = s.pixLatch := rfl
@[simp] theorem State.push_penX (s : State) (v : Word) : (s.push v).penX = s.penX := rfl
@[simp] theorem State.push_penY (s : State) (v : Word) : (s.push v).penY = s.penY := rfl
@[simp] theorem State.push_mqStage (s : State) (v : Word) : (s.push v).mqStage = s.mqStage := rfl
@[simp] theorem State.push_mqShown (s : State) (v : Word) : (s.push v).mqShown = s.mqShown := rfl
@[simp] theorem State.push_mqCursor (s : State) (v : Word) : (s.push v).mqCursor = s.mqCursor := rfl
@[simp] theorem State.push_numShown (s : State) (v : Word) : (s.push v).numShown = s.numShown := rfl
@[simp] theorem State.push_numDebug (s : State) (v : Word) : (s.push v).numDebug = s.numDebug := rfl
@[simp] theorem State.push_buttons (s : State) (v : Word) : (s.push v).buttons = s.buttons := rfl
@[simp] theorem State.push_imem (s : State) (v : Word) : (s.push v).imem = s.imem := rfl
@[simp] theorem State.push_source (s : State) (v : Word) : (s.push v).source = s.source := rfl
@[simp] theorem State.push_runState (s : State) (v : Word) : (s.push v).runState = s.runState := rfl
@[simp] theorem State.push_stopRequested (s : State) (v : Word) : (s.push v).stopRequested = s.stopRequested := rfl
@[simp] theorem State.push_speed (s : State) (v : Word) : (s.push v).speed = s.speed := rfl
@[simp] theorem State.push_report (s : State) (v : Word) : (s.push v).report = s.report := rfl
@[simp] theorem State.push_drawCount (s : State) (v : Word) : (s.push v).drawCount = s.drawCount := rfl
@[simp] theorem State.push_readReg (s : State) (v : Word) (j : RegIx) : (s.push v).readReg j = s.readReg j := rfl
@[simp] theorem State.push_readCell (s : State) (v : Word) (k : Nat) : (s.push v).readCell k = s.readCell k := rfl

@[simp] theorem State.dropTop_x (s : State) : (s.dropTop).x = s.x := rfl
@[simp] theorem State.dropTop_dmem (s : State) : (s.dropTop).dmem = s.dmem := rfl
@[simp] theorem State.dropTop_pc (s : State) : (s.dropTop).pc = s.pc := rfl
@[simp] theorem State.dropTop_flags (s : State) : (s.dropTop).flags = s.flags := rfl
@[simp] theorem State.dropTop_cs (s : State) : (s.dropTop).cs = s.cs.dropLast := rfl
@[simp] theorem State.dropTop_wp (s : State) : (s.dropTop).wp = s.wp := rfl
@[simp] theorem State.dropTop_rand (s : State) : (s.dropTop).rand = s.rand := rfl
@[simp] theorem State.dropTop_pixBack (s : State) : (s.dropTop).pixBack = s.pixBack := rfl
@[simp] theorem State.dropTop_pixFront (s : State) : (s.dropTop).pixFront = s.pixFront := rfl
@[simp] theorem State.dropTop_pixLatch (s : State) : (s.dropTop).pixLatch = s.pixLatch := rfl
@[simp] theorem State.dropTop_penX (s : State) : (s.dropTop).penX = s.penX := rfl
@[simp] theorem State.dropTop_penY (s : State) : (s.dropTop).penY = s.penY := rfl
@[simp] theorem State.dropTop_mqStage (s : State) : (s.dropTop).mqStage = s.mqStage := rfl
@[simp] theorem State.dropTop_mqShown (s : State) : (s.dropTop).mqShown = s.mqShown := rfl
@[simp] theorem State.dropTop_mqCursor (s : State) : (s.dropTop).mqCursor = s.mqCursor := rfl
@[simp] theorem State.dropTop_numShown (s : State) : (s.dropTop).numShown = s.numShown := rfl
@[simp] theorem State.dropTop_numDebug (s : State) : (s.dropTop).numDebug = s.numDebug := rfl
@[simp] theorem State.dropTop_buttons (s : State) : (s.dropTop).buttons = s.buttons := rfl
@[simp] theorem State.dropTop_imem (s : State) : (s.dropTop).imem = s.imem := rfl
@[simp] theorem State.dropTop_source (s : State) : (s.dropTop).source = s.source := rfl
@[simp] theorem State.dropTop_runState (s : State) : (s.dropTop).runState = s.runState := rfl
@[simp] theorem State.dropTop_stopRequested (s : State) : (s.dropTop).stopRequested = s.stopRequested := rfl
@[simp] theorem State.dropTop_speed (s : State) : (s.dropTop).speed = s.speed := rfl
@[simp] theorem State.dropTop_report (s : State) : (s.dropTop).report = s.report := rfl
@[simp] theorem State.dropTop_drawCount (s : State) : (s.dropTop).drawCount = s.drawCount := rfl
@[simp] theorem State.dropTop_readReg (s : State) (j : RegIx) : (s.dropTop).readReg j = s.readReg j := rfl
@[simp] theorem State.dropTop_readCell (s : State) (k : Nat) : (s.dropTop).readCell k = s.readCell k := rfl

@[simp] theorem State.writeWP_x (s : State) (n : PortIx) (v : Word) : (s.writeWP n v).x = s.x := rfl
@[simp] theorem State.writeWP_dmem (s : State) (n : PortIx) (v : Word) : (s.writeWP n v).dmem = s.dmem := rfl
@[simp] theorem State.writeWP_pc (s : State) (n : PortIx) (v : Word) : (s.writeWP n v).pc = s.pc := rfl
@[simp] theorem State.writeWP_flags (s : State) (n : PortIx) (v : Word) : (s.writeWP n v).flags = s.flags := rfl
@[simp] theorem State.writeWP_cs (s : State) (n : PortIx) (v : Word) : (s.writeWP n v).cs = s.cs := rfl
@[simp] theorem State.writeWP_wp (s : State) (n : PortIx) (v : Word) : (s.writeWP n v).wp = s.wp.set n.toNat v n.isLt := rfl
@[simp] theorem State.writeWP_rand (s : State) (n : PortIx) (v : Word) : (s.writeWP n v).rand = s.rand := rfl
@[simp] theorem State.writeWP_pixBack (s : State) (n : PortIx) (v : Word) : (s.writeWP n v).pixBack = s.pixBack := rfl
@[simp] theorem State.writeWP_pixFront (s : State) (n : PortIx) (v : Word) : (s.writeWP n v).pixFront = s.pixFront := rfl
@[simp] theorem State.writeWP_pixLatch (s : State) (n : PortIx) (v : Word) : (s.writeWP n v).pixLatch = s.pixLatch := rfl
@[simp] theorem State.writeWP_penX (s : State) (n : PortIx) (v : Word) : (s.writeWP n v).penX = s.penX := rfl
@[simp] theorem State.writeWP_penY (s : State) (n : PortIx) (v : Word) : (s.writeWP n v).penY = s.penY := rfl
@[simp] theorem State.writeWP_mqStage (s : State) (n : PortIx) (v : Word) : (s.writeWP n v).mqStage = s.mqStage := rfl
@[simp] theorem State.writeWP_mqShown (s : State) (n : PortIx) (v : Word) : (s.writeWP n v).mqShown = s.mqShown := rfl
@[simp] theorem State.writeWP_mqCursor (s : State) (n : PortIx) (v : Word) : (s.writeWP n v).mqCursor = s.mqCursor := rfl
@[simp] theorem State.writeWP_numShown (s : State) (n : PortIx) (v : Word) : (s.writeWP n v).numShown = s.numShown := rfl
@[simp] theorem State.writeWP_numDebug (s : State) (n : PortIx) (v : Word) : (s.writeWP n v).numDebug = s.numDebug := rfl
@[simp] theorem State.writeWP_buttons (s : State) (n : PortIx) (v : Word) : (s.writeWP n v).buttons = s.buttons := rfl
@[simp] theorem State.writeWP_imem (s : State) (n : PortIx) (v : Word) : (s.writeWP n v).imem = s.imem := rfl
@[simp] theorem State.writeWP_source (s : State) (n : PortIx) (v : Word) : (s.writeWP n v).source = s.source := rfl
@[simp] theorem State.writeWP_runState (s : State) (n : PortIx) (v : Word) : (s.writeWP n v).runState = s.runState := rfl
@[simp] theorem State.writeWP_stopRequested (s : State) (n : PortIx) (v : Word) : (s.writeWP n v).stopRequested = s.stopRequested := rfl
@[simp] theorem State.writeWP_speed (s : State) (n : PortIx) (v : Word) : (s.writeWP n v).speed = s.speed := rfl
@[simp] theorem State.writeWP_report (s : State) (n : PortIx) (v : Word) : (s.writeWP n v).report = s.report := rfl
@[simp] theorem State.writeWP_drawCount (s : State) (n : PortIx) (v : Word) : (s.writeWP n v).drawCount = s.drawCount := rfl
@[simp] theorem State.writeWP_readReg (s : State) (n : PortIx) (v : Word) (j : RegIx) : (s.writeWP n v).readReg j = s.readReg j := rfl
@[simp] theorem State.writeWP_readCell (s : State) (n : PortIx) (v : Word) (k : Nat) : (s.writeWP n v).readCell k = s.readCell k := rfl

@[simp] theorem State.commitMarquee_x (s : State) : (s.commitMarquee).x = s.x := rfl
@[simp] theorem State.commitMarquee_dmem (s : State) : (s.commitMarquee).dmem = s.dmem := rfl
@[simp] theorem State.commitMarquee_pc (s : State) : (s.commitMarquee).pc = s.pc := rfl
@[simp] theorem State.commitMarquee_flags (s : State) : (s.commitMarquee).flags = s.flags := rfl
@[simp] theorem State.commitMarquee_cs (s : State) : (s.commitMarquee).cs = s.cs := rfl
@[simp] theorem State.commitMarquee_wp (s : State) : (s.commitMarquee).wp = s.wp := rfl
@[simp] theorem State.commitMarquee_rand (s : State) : (s.commitMarquee).rand = s.rand := rfl
@[simp] theorem State.commitMarquee_pixBack (s : State) : (s.commitMarquee).pixBack = s.pixBack := rfl
@[simp] theorem State.commitMarquee_pixFront (s : State) : (s.commitMarquee).pixFront = s.pixFront := rfl
@[simp] theorem State.commitMarquee_pixLatch (s : State) : (s.commitMarquee).pixLatch = s.pixLatch := rfl
@[simp] theorem State.commitMarquee_penX (s : State) : (s.commitMarquee).penX = s.penX := rfl
@[simp] theorem State.commitMarquee_penY (s : State) : (s.commitMarquee).penY = s.penY := rfl
@[simp] theorem State.commitMarquee_mqStage (s : State) : (s.commitMarquee).mqStage = s.mqStage := rfl
@[simp] theorem State.commitMarquee_mqShown (s : State) : (s.commitMarquee).mqShown = s.mqStage := rfl
@[simp] theorem State.commitMarquee_mqCursor (s : State) : (s.commitMarquee).mqCursor = s.mqCursor := rfl
@[simp] theorem State.commitMarquee_numShown (s : State) : (s.commitMarquee).numShown = s.numShown := rfl
@[simp] theorem State.commitMarquee_numDebug (s : State) : (s.commitMarquee).numDebug = s.numDebug := rfl
@[simp] theorem State.commitMarquee_buttons (s : State) : (s.commitMarquee).buttons = s.buttons := rfl
@[simp] theorem State.commitMarquee_imem (s : State) : (s.commitMarquee).imem = s.imem := rfl
@[simp] theorem State.commitMarquee_source (s : State) : (s.commitMarquee).source = s.source := rfl
@[simp] theorem State.commitMarquee_runState (s : State) : (s.commitMarquee).runState = s.runState := rfl
@[simp] theorem State.commitMarquee_stopRequested (s : State) : (s.commitMarquee).stopRequested = s.stopRequested := rfl
@[simp] theorem State.commitMarquee_speed (s : State) : (s.commitMarquee).speed = s.speed := rfl
@[simp] theorem State.commitMarquee_report (s : State) : (s.commitMarquee).report = s.report := rfl
@[simp] theorem State.commitMarquee_drawCount (s : State) : (s.commitMarquee).drawCount = s.drawCount := rfl
@[simp] theorem State.commitMarquee_readReg (s : State) (j : RegIx) : (s.commitMarquee).readReg j = s.readReg j := rfl
@[simp] theorem State.commitMarquee_readCell (s : State) (k : Nat) : (s.commitMarquee).readCell k = s.readCell k := rfl

@[simp] theorem State.clearMarquee_x (s : State) : (s.clearMarquee).x = s.x := rfl
@[simp] theorem State.clearMarquee_dmem (s : State) : (s.clearMarquee).dmem = s.dmem := rfl
@[simp] theorem State.clearMarquee_pc (s : State) : (s.clearMarquee).pc = s.pc := rfl
@[simp] theorem State.clearMarquee_flags (s : State) : (s.clearMarquee).flags = s.flags := rfl
@[simp] theorem State.clearMarquee_cs (s : State) : (s.clearMarquee).cs = s.cs := rfl
@[simp] theorem State.clearMarquee_wp (s : State) : (s.clearMarquee).wp = s.wp := rfl
@[simp] theorem State.clearMarquee_rand (s : State) : (s.clearMarquee).rand = s.rand := rfl
@[simp] theorem State.clearMarquee_pixBack (s : State) : (s.clearMarquee).pixBack = s.pixBack := rfl
@[simp] theorem State.clearMarquee_pixFront (s : State) : (s.clearMarquee).pixFront = s.pixFront := rfl
@[simp] theorem State.clearMarquee_pixLatch (s : State) : (s.clearMarquee).pixLatch = s.pixLatch := rfl
@[simp] theorem State.clearMarquee_penX (s : State) : (s.clearMarquee).penX = s.penX := rfl
@[simp] theorem State.clearMarquee_penY (s : State) : (s.clearMarquee).penY = s.penY := rfl
@[simp] theorem State.clearMarquee_mqStage (s : State) : (s.clearMarquee).mqStage = Marquee.blank := rfl
@[simp] theorem State.clearMarquee_mqShown (s : State) : (s.clearMarquee).mqShown = s.mqShown := rfl
@[simp] theorem State.clearMarquee_mqCursor (s : State) : (s.clearMarquee).mqCursor = 0 := rfl
@[simp] theorem State.clearMarquee_numShown (s : State) : (s.clearMarquee).numShown = s.numShown := rfl
@[simp] theorem State.clearMarquee_numDebug (s : State) : (s.clearMarquee).numDebug = s.numDebug := rfl
@[simp] theorem State.clearMarquee_buttons (s : State) : (s.clearMarquee).buttons = s.buttons := rfl
@[simp] theorem State.clearMarquee_imem (s : State) : (s.clearMarquee).imem = s.imem := rfl
@[simp] theorem State.clearMarquee_source (s : State) : (s.clearMarquee).source = s.source := rfl
@[simp] theorem State.clearMarquee_runState (s : State) : (s.clearMarquee).runState = s.runState := rfl
@[simp] theorem State.clearMarquee_stopRequested (s : State) : (s.clearMarquee).stopRequested = s.stopRequested := rfl
@[simp] theorem State.clearMarquee_speed (s : State) : (s.clearMarquee).speed = s.speed := rfl
@[simp] theorem State.clearMarquee_report (s : State) : (s.clearMarquee).report = s.report := rfl
@[simp] theorem State.clearMarquee_drawCount (s : State) : (s.clearMarquee).drawCount = s.drawCount := rfl
@[simp] theorem State.clearMarquee_readReg (s : State) (j : RegIx) : (s.clearMarquee).readReg j = s.readReg j := rfl
@[simp] theorem State.clearMarquee_readCell (s : State) (k : Nat) : (s.clearMarquee).readCell k = s.readCell k := rfl

@[simp] theorem State.appendMarquee_x (s : State) (c : CharCode) : (s.appendMarquee c).x = s.x := rfl
@[simp] theorem State.appendMarquee_dmem (s : State) (c : CharCode) : (s.appendMarquee c).dmem = s.dmem := rfl
@[simp] theorem State.appendMarquee_pc (s : State) (c : CharCode) : (s.appendMarquee c).pc = s.pc := rfl
@[simp] theorem State.appendMarquee_flags (s : State) (c : CharCode) : (s.appendMarquee c).flags = s.flags := rfl
@[simp] theorem State.appendMarquee_cs (s : State) (c : CharCode) : (s.appendMarquee c).cs = s.cs := rfl
@[simp] theorem State.appendMarquee_wp (s : State) (c : CharCode) : (s.appendMarquee c).wp = s.wp := rfl
@[simp] theorem State.appendMarquee_rand (s : State) (c : CharCode) : (s.appendMarquee c).rand = s.rand := rfl
@[simp] theorem State.appendMarquee_pixBack (s : State) (c : CharCode) : (s.appendMarquee c).pixBack = s.pixBack := rfl
@[simp] theorem State.appendMarquee_pixFront (s : State) (c : CharCode) : (s.appendMarquee c).pixFront = s.pixFront := rfl
@[simp] theorem State.appendMarquee_pixLatch (s : State) (c : CharCode) : (s.appendMarquee c).pixLatch = s.pixLatch := rfl
@[simp] theorem State.appendMarquee_penX (s : State) (c : CharCode) : (s.appendMarquee c).penX = s.penX := rfl
@[simp] theorem State.appendMarquee_penY (s : State) (c : CharCode) : (s.appendMarquee c).penY = s.penY := rfl
@[simp] theorem State.appendMarquee_mqStage (s : State) (c : CharCode) : (s.appendMarquee c).mqStage = s.mqStage.set s.mqCursor.val c s.mqCursor.isLt := rfl
@[simp] theorem State.appendMarquee_mqShown (s : State) (c : CharCode) : (s.appendMarquee c).mqShown = s.mqShown := rfl
@[simp] theorem State.appendMarquee_mqCursor (s : State) (c : CharCode) : (s.appendMarquee c).mqCursor = nextCursor s.mqCursor := rfl
@[simp] theorem State.appendMarquee_numShown (s : State) (c : CharCode) : (s.appendMarquee c).numShown = s.numShown := rfl
@[simp] theorem State.appendMarquee_numDebug (s : State) (c : CharCode) : (s.appendMarquee c).numDebug = s.numDebug := rfl
@[simp] theorem State.appendMarquee_buttons (s : State) (c : CharCode) : (s.appendMarquee c).buttons = s.buttons := rfl
@[simp] theorem State.appendMarquee_imem (s : State) (c : CharCode) : (s.appendMarquee c).imem = s.imem := rfl
@[simp] theorem State.appendMarquee_source (s : State) (c : CharCode) : (s.appendMarquee c).source = s.source := rfl
@[simp] theorem State.appendMarquee_runState (s : State) (c : CharCode) : (s.appendMarquee c).runState = s.runState := rfl
@[simp] theorem State.appendMarquee_stopRequested (s : State) (c : CharCode) : (s.appendMarquee c).stopRequested = s.stopRequested := rfl
@[simp] theorem State.appendMarquee_speed (s : State) (c : CharCode) : (s.appendMarquee c).speed = s.speed := rfl
@[simp] theorem State.appendMarquee_report (s : State) (c : CharCode) : (s.appendMarquee c).report = s.report := rfl
@[simp] theorem State.appendMarquee_drawCount (s : State) (c : CharCode) : (s.appendMarquee c).drawCount = s.drawCount := rfl
@[simp] theorem State.appendMarquee_readReg (s : State) (c : CharCode) (j : RegIx) : (s.appendMarquee c).readReg j = s.readReg j := rfl
@[simp] theorem State.appendMarquee_readCell (s : State) (c : CharCode) (k : Nat) : (s.appendMarquee c).readCell k = s.readCell k := rfl

@[simp] theorem State.showNumber_x (s : State) (v : Word) : (s.showNumber v).x = s.x := rfl
@[simp] theorem State.showNumber_dmem (s : State) (v : Word) : (s.showNumber v).dmem = s.dmem := rfl
@[simp] theorem State.showNumber_pc (s : State) (v : Word) : (s.showNumber v).pc = s.pc := rfl
@[simp] theorem State.showNumber_flags (s : State) (v : Word) : (s.showNumber v).flags = s.flags := rfl
@[simp] theorem State.showNumber_cs (s : State) (v : Word) : (s.showNumber v).cs = s.cs := rfl
@[simp] theorem State.showNumber_wp (s : State) (v : Word) : (s.showNumber v).wp = s.wp := rfl
@[simp] theorem State.showNumber_rand (s : State) (v : Word) : (s.showNumber v).rand = s.rand := rfl
@[simp] theorem State.showNumber_pixBack (s : State) (v : Word) : (s.showNumber v).pixBack = s.pixBack := rfl
@[simp] theorem State.showNumber_pixFront (s : State) (v : Word) : (s.showNumber v).pixFront = s.pixFront := rfl
@[simp] theorem State.showNumber_pixLatch (s : State) (v : Word) : (s.showNumber v).pixLatch = s.pixLatch := rfl
@[simp] theorem State.showNumber_penX (s : State) (v : Word) : (s.showNumber v).penX = s.penX := rfl
@[simp] theorem State.showNumber_penY (s : State) (v : Word) : (s.showNumber v).penY = s.penY := rfl
@[simp] theorem State.showNumber_mqStage (s : State) (v : Word) : (s.showNumber v).mqStage = s.mqStage := rfl
@[simp] theorem State.showNumber_mqShown (s : State) (v : Word) : (s.showNumber v).mqShown = s.mqShown := rfl
@[simp] theorem State.showNumber_mqCursor (s : State) (v : Word) : (s.showNumber v).mqCursor = s.mqCursor := rfl
@[simp] theorem State.showNumber_numShown (s : State) (v : Word) : (s.showNumber v).numShown = numShownOf v := rfl
@[simp] theorem State.showNumber_numDebug (s : State) (v : Word) : (s.showNumber v).numDebug = v := rfl
@[simp] theorem State.showNumber_buttons (s : State) (v : Word) : (s.showNumber v).buttons = s.buttons := rfl
@[simp] theorem State.showNumber_imem (s : State) (v : Word) : (s.showNumber v).imem = s.imem := rfl
@[simp] theorem State.showNumber_source (s : State) (v : Word) : (s.showNumber v).source = s.source := rfl
@[simp] theorem State.showNumber_runState (s : State) (v : Word) : (s.showNumber v).runState = s.runState := rfl
@[simp] theorem State.showNumber_stopRequested (s : State) (v : Word) : (s.showNumber v).stopRequested = s.stopRequested := rfl
@[simp] theorem State.showNumber_speed (s : State) (v : Word) : (s.showNumber v).speed = s.speed := rfl
@[simp] theorem State.showNumber_report (s : State) (v : Word) : (s.showNumber v).report = s.report := rfl
@[simp] theorem State.showNumber_drawCount (s : State) (v : Word) : (s.showNumber v).drawCount = s.drawCount := rfl
@[simp] theorem State.showNumber_readReg (s : State) (v : Word) (j : RegIx) : (s.showNumber v).readReg j = s.readReg j := rfl
@[simp] theorem State.showNumber_readCell (s : State) (v : Word) (k : Nat) : (s.showNumber v).readCell k = s.readCell k := rfl

@[simp] theorem State.setPen_x (s : State) (px py : Coord) : (s.setPen px py).x = s.x := rfl
@[simp] theorem State.setPen_dmem (s : State) (px py : Coord) : (s.setPen px py).dmem = s.dmem := rfl
@[simp] theorem State.setPen_pc (s : State) (px py : Coord) : (s.setPen px py).pc = s.pc := rfl
@[simp] theorem State.setPen_flags (s : State) (px py : Coord) : (s.setPen px py).flags = s.flags := rfl
@[simp] theorem State.setPen_cs (s : State) (px py : Coord) : (s.setPen px py).cs = s.cs := rfl
@[simp] theorem State.setPen_wp (s : State) (px py : Coord) : (s.setPen px py).wp = s.wp := rfl
@[simp] theorem State.setPen_rand (s : State) (px py : Coord) : (s.setPen px py).rand = s.rand := rfl
@[simp] theorem State.setPen_pixBack (s : State) (px py : Coord) : (s.setPen px py).pixBack = s.pixBack := rfl
@[simp] theorem State.setPen_pixFront (s : State) (px py : Coord) : (s.setPen px py).pixFront = s.pixFront := rfl
@[simp] theorem State.setPen_pixLatch (s : State) (px py : Coord) : (s.setPen px py).pixLatch = s.pixLatch := rfl
@[simp] theorem State.setPen_penX (s : State) (px py : Coord) : (s.setPen px py).penX = px := rfl
@[simp] theorem State.setPen_penY (s : State) (px py : Coord) : (s.setPen px py).penY = py := rfl
@[simp] theorem State.setPen_mqStage (s : State) (px py : Coord) : (s.setPen px py).mqStage = s.mqStage := rfl
@[simp] theorem State.setPen_mqShown (s : State) (px py : Coord) : (s.setPen px py).mqShown = s.mqShown := rfl
@[simp] theorem State.setPen_mqCursor (s : State) (px py : Coord) : (s.setPen px py).mqCursor = s.mqCursor := rfl
@[simp] theorem State.setPen_numShown (s : State) (px py : Coord) : (s.setPen px py).numShown = s.numShown := rfl
@[simp] theorem State.setPen_numDebug (s : State) (px py : Coord) : (s.setPen px py).numDebug = s.numDebug := rfl
@[simp] theorem State.setPen_buttons (s : State) (px py : Coord) : (s.setPen px py).buttons = s.buttons := rfl
@[simp] theorem State.setPen_imem (s : State) (px py : Coord) : (s.setPen px py).imem = s.imem := rfl
@[simp] theorem State.setPen_source (s : State) (px py : Coord) : (s.setPen px py).source = s.source := rfl
@[simp] theorem State.setPen_runState (s : State) (px py : Coord) : (s.setPen px py).runState = s.runState := rfl
@[simp] theorem State.setPen_stopRequested (s : State) (px py : Coord) : (s.setPen px py).stopRequested = s.stopRequested := rfl
@[simp] theorem State.setPen_speed (s : State) (px py : Coord) : (s.setPen px py).speed = s.speed := rfl
@[simp] theorem State.setPen_report (s : State) (px py : Coord) : (s.setPen px py).report = s.report := rfl
@[simp] theorem State.setPen_drawCount (s : State) (px py : Coord) : (s.setPen px py).drawCount = s.drawCount := rfl
@[simp] theorem State.setPen_readReg (s : State) (px py : Coord) (j : RegIx) : (s.setPen px py).readReg j = s.readReg j := rfl
@[simp] theorem State.setPen_readCell (s : State) (px py : Coord) (k : Nat) : (s.setPen px py).readCell k = s.readCell k := rfl

@[simp] theorem State.setLatch_x (s : State) (b : Bool) : (s.setLatch b).x = s.x := rfl
@[simp] theorem State.setLatch_dmem (s : State) (b : Bool) : (s.setLatch b).dmem = s.dmem := rfl
@[simp] theorem State.setLatch_pc (s : State) (b : Bool) : (s.setLatch b).pc = s.pc := rfl
@[simp] theorem State.setLatch_flags (s : State) (b : Bool) : (s.setLatch b).flags = s.flags := rfl
@[simp] theorem State.setLatch_cs (s : State) (b : Bool) : (s.setLatch b).cs = s.cs := rfl
@[simp] theorem State.setLatch_wp (s : State) (b : Bool) : (s.setLatch b).wp = s.wp := rfl
@[simp] theorem State.setLatch_rand (s : State) (b : Bool) : (s.setLatch b).rand = s.rand := rfl
@[simp] theorem State.setLatch_pixBack (s : State) (b : Bool) : (s.setLatch b).pixBack = s.pixBack := rfl
@[simp] theorem State.setLatch_pixFront (s : State) (b : Bool) : (s.setLatch b).pixFront = s.pixFront := rfl
@[simp] theorem State.setLatch_pixLatch (s : State) (b : Bool) : (s.setLatch b).pixLatch = b := rfl
@[simp] theorem State.setLatch_penX (s : State) (b : Bool) : (s.setLatch b).penX = s.penX := rfl
@[simp] theorem State.setLatch_penY (s : State) (b : Bool) : (s.setLatch b).penY = s.penY := rfl
@[simp] theorem State.setLatch_mqStage (s : State) (b : Bool) : (s.setLatch b).mqStage = s.mqStage := rfl
@[simp] theorem State.setLatch_mqShown (s : State) (b : Bool) : (s.setLatch b).mqShown = s.mqShown := rfl
@[simp] theorem State.setLatch_mqCursor (s : State) (b : Bool) : (s.setLatch b).mqCursor = s.mqCursor := rfl
@[simp] theorem State.setLatch_numShown (s : State) (b : Bool) : (s.setLatch b).numShown = s.numShown := rfl
@[simp] theorem State.setLatch_numDebug (s : State) (b : Bool) : (s.setLatch b).numDebug = s.numDebug := rfl
@[simp] theorem State.setLatch_buttons (s : State) (b : Bool) : (s.setLatch b).buttons = s.buttons := rfl
@[simp] theorem State.setLatch_imem (s : State) (b : Bool) : (s.setLatch b).imem = s.imem := rfl
@[simp] theorem State.setLatch_source (s : State) (b : Bool) : (s.setLatch b).source = s.source := rfl
@[simp] theorem State.setLatch_runState (s : State) (b : Bool) : (s.setLatch b).runState = s.runState := rfl
@[simp] theorem State.setLatch_stopRequested (s : State) (b : Bool) : (s.setLatch b).stopRequested = s.stopRequested := rfl
@[simp] theorem State.setLatch_speed (s : State) (b : Bool) : (s.setLatch b).speed = s.speed := rfl
@[simp] theorem State.setLatch_report (s : State) (b : Bool) : (s.setLatch b).report = s.report := rfl
@[simp] theorem State.setLatch_drawCount (s : State) (b : Bool) : (s.setLatch b).drawCount = s.drawCount := rfl
@[simp] theorem State.setLatch_readReg (s : State) (b : Bool) (j : RegIx) : (s.setLatch b).readReg j = s.readReg j := rfl
@[simp] theorem State.setLatch_readCell (s : State) (b : Bool) (k : Nat) : (s.setLatch b).readCell k = s.readCell k := rfl

@[simp] theorem State.drawPixel_x (s : State) : (s.drawPixel).x = s.x := rfl
@[simp] theorem State.drawPixel_dmem (s : State) : (s.drawPixel).dmem = s.dmem := rfl
@[simp] theorem State.drawPixel_pc (s : State) : (s.drawPixel).pc = s.pc := rfl
@[simp] theorem State.drawPixel_flags (s : State) : (s.drawPixel).flags = s.flags := rfl
@[simp] theorem State.drawPixel_cs (s : State) : (s.drawPixel).cs = s.cs := rfl
@[simp] theorem State.drawPixel_wp (s : State) : (s.drawPixel).wp = s.wp := rfl
@[simp] theorem State.drawPixel_rand (s : State) : (s.drawPixel).rand = s.rand := rfl
@[simp] theorem State.drawPixel_pixBack (s : State) : (s.drawPixel).pixBack = s.pixBack.setPixel (31 - s.penY.toNat) (31 - s.penX.toNat) s.pixLatch := rfl
@[simp] theorem State.drawPixel_pixFront (s : State) : (s.drawPixel).pixFront = s.pixFront := rfl
@[simp] theorem State.drawPixel_pixLatch (s : State) : (s.drawPixel).pixLatch = s.pixLatch := rfl
@[simp] theorem State.drawPixel_penX (s : State) : (s.drawPixel).penX = s.penX := rfl
@[simp] theorem State.drawPixel_penY (s : State) : (s.drawPixel).penY = s.penY := rfl
@[simp] theorem State.drawPixel_mqStage (s : State) : (s.drawPixel).mqStage = s.mqStage := rfl
@[simp] theorem State.drawPixel_mqShown (s : State) : (s.drawPixel).mqShown = s.mqShown := rfl
@[simp] theorem State.drawPixel_mqCursor (s : State) : (s.drawPixel).mqCursor = s.mqCursor := rfl
@[simp] theorem State.drawPixel_numShown (s : State) : (s.drawPixel).numShown = s.numShown := rfl
@[simp] theorem State.drawPixel_numDebug (s : State) : (s.drawPixel).numDebug = s.numDebug := rfl
@[simp] theorem State.drawPixel_buttons (s : State) : (s.drawPixel).buttons = s.buttons := rfl
@[simp] theorem State.drawPixel_imem (s : State) : (s.drawPixel).imem = s.imem := rfl
@[simp] theorem State.drawPixel_source (s : State) : (s.drawPixel).source = s.source := rfl
@[simp] theorem State.drawPixel_runState (s : State) : (s.drawPixel).runState = s.runState := rfl
@[simp] theorem State.drawPixel_stopRequested (s : State) : (s.drawPixel).stopRequested = s.stopRequested := rfl
@[simp] theorem State.drawPixel_speed (s : State) : (s.drawPixel).speed = s.speed := rfl
@[simp] theorem State.drawPixel_report (s : State) : (s.drawPixel).report = s.report := rfl
@[simp] theorem State.drawPixel_drawCount (s : State) : (s.drawPixel).drawCount = s.drawCount := rfl
@[simp] theorem State.drawPixel_readReg (s : State) (j : RegIx) : (s.drawPixel).readReg j = s.readReg j := rfl
@[simp] theorem State.drawPixel_readCell (s : State) (k : Nat) : (s.drawPixel).readCell k = s.readCell k := rfl

@[simp] theorem State.fillBack_x (s : State) : (s.fillBack).x = s.x := rfl
@[simp] theorem State.fillBack_dmem (s : State) : (s.fillBack).dmem = s.dmem := rfl
@[simp] theorem State.fillBack_pc (s : State) : (s.fillBack).pc = s.pc := rfl
@[simp] theorem State.fillBack_flags (s : State) : (s.fillBack).flags = s.flags := rfl
@[simp] theorem State.fillBack_cs (s : State) : (s.fillBack).cs = s.cs := rfl
@[simp] theorem State.fillBack_wp (s : State) : (s.fillBack).wp = s.wp := rfl
@[simp] theorem State.fillBack_rand (s : State) : (s.fillBack).rand = s.rand := rfl
@[simp] theorem State.fillBack_pixBack (s : State) : (s.fillBack).pixBack = Screen.fill s.pixLatch := rfl
@[simp] theorem State.fillBack_pixFront (s : State) : (s.fillBack).pixFront = s.pixFront := rfl
@[simp] theorem State.fillBack_pixLatch (s : State) : (s.fillBack).pixLatch = s.pixLatch := rfl
@[simp] theorem State.fillBack_penX (s : State) : (s.fillBack).penX = s.penX := rfl
@[simp] theorem State.fillBack_penY (s : State) : (s.fillBack).penY = s.penY := rfl
@[simp] theorem State.fillBack_mqStage (s : State) : (s.fillBack).mqStage = s.mqStage := rfl
@[simp] theorem State.fillBack_mqShown (s : State) : (s.fillBack).mqShown = s.mqShown := rfl
@[simp] theorem State.fillBack_mqCursor (s : State) : (s.fillBack).mqCursor = s.mqCursor := rfl
@[simp] theorem State.fillBack_numShown (s : State) : (s.fillBack).numShown = s.numShown := rfl
@[simp] theorem State.fillBack_numDebug (s : State) : (s.fillBack).numDebug = s.numDebug := rfl
@[simp] theorem State.fillBack_buttons (s : State) : (s.fillBack).buttons = s.buttons := rfl
@[simp] theorem State.fillBack_imem (s : State) : (s.fillBack).imem = s.imem := rfl
@[simp] theorem State.fillBack_source (s : State) : (s.fillBack).source = s.source := rfl
@[simp] theorem State.fillBack_runState (s : State) : (s.fillBack).runState = s.runState := rfl
@[simp] theorem State.fillBack_stopRequested (s : State) : (s.fillBack).stopRequested = s.stopRequested := rfl
@[simp] theorem State.fillBack_speed (s : State) : (s.fillBack).speed = s.speed := rfl
@[simp] theorem State.fillBack_report (s : State) : (s.fillBack).report = s.report := rfl
@[simp] theorem State.fillBack_drawCount (s : State) : (s.fillBack).drawCount = s.drawCount := rfl
@[simp] theorem State.fillBack_readReg (s : State) (j : RegIx) : (s.fillBack).readReg j = s.readReg j := rfl
@[simp] theorem State.fillBack_readCell (s : State) (k : Nat) : (s.fillBack).readCell k = s.readCell k := rfl

@[simp] theorem State.commitScreen_x (s : State) : (s.commitScreen).x = s.x := rfl
@[simp] theorem State.commitScreen_dmem (s : State) : (s.commitScreen).dmem = s.dmem := rfl
@[simp] theorem State.commitScreen_pc (s : State) : (s.commitScreen).pc = s.pc := rfl
@[simp] theorem State.commitScreen_flags (s : State) : (s.commitScreen).flags = s.flags := rfl
@[simp] theorem State.commitScreen_cs (s : State) : (s.commitScreen).cs = s.cs := rfl
@[simp] theorem State.commitScreen_wp (s : State) : (s.commitScreen).wp = s.wp := rfl
@[simp] theorem State.commitScreen_rand (s : State) : (s.commitScreen).rand = s.rand := rfl
@[simp] theorem State.commitScreen_pixBack (s : State) : (s.commitScreen).pixBack = s.pixBack := rfl
@[simp] theorem State.commitScreen_pixFront (s : State) : (s.commitScreen).pixFront = s.pixBack := rfl
@[simp] theorem State.commitScreen_pixLatch (s : State) : (s.commitScreen).pixLatch = s.pixLatch := rfl
@[simp] theorem State.commitScreen_penX (s : State) : (s.commitScreen).penX = s.penX := rfl
@[simp] theorem State.commitScreen_penY (s : State) : (s.commitScreen).penY = s.penY := rfl
@[simp] theorem State.commitScreen_mqStage (s : State) : (s.commitScreen).mqStage = s.mqStage := rfl
@[simp] theorem State.commitScreen_mqShown (s : State) : (s.commitScreen).mqShown = s.mqShown := rfl
@[simp] theorem State.commitScreen_mqCursor (s : State) : (s.commitScreen).mqCursor = s.mqCursor := rfl
@[simp] theorem State.commitScreen_numShown (s : State) : (s.commitScreen).numShown = s.numShown := rfl
@[simp] theorem State.commitScreen_numDebug (s : State) : (s.commitScreen).numDebug = s.numDebug := rfl
@[simp] theorem State.commitScreen_buttons (s : State) : (s.commitScreen).buttons = s.buttons := rfl
@[simp] theorem State.commitScreen_imem (s : State) : (s.commitScreen).imem = s.imem := rfl
@[simp] theorem State.commitScreen_source (s : State) : (s.commitScreen).source = s.source := rfl
@[simp] theorem State.commitScreen_runState (s : State) : (s.commitScreen).runState = s.runState := rfl
@[simp] theorem State.commitScreen_stopRequested (s : State) : (s.commitScreen).stopRequested = s.stopRequested := rfl
@[simp] theorem State.commitScreen_speed (s : State) : (s.commitScreen).speed = s.speed := rfl
@[simp] theorem State.commitScreen_report (s : State) : (s.commitScreen).report = s.report := rfl
@[simp] theorem State.commitScreen_drawCount (s : State) : (s.commitScreen).drawCount = s.drawCount := rfl
@[simp] theorem State.commitScreen_readReg (s : State) (j : RegIx) : (s.commitScreen).readReg j = s.readReg j := rfl
@[simp] theorem State.commitScreen_readCell (s : State) (k : Nat) : (s.commitScreen).readCell k = s.readCell k := rfl

@[simp] theorem State.consumeButtons_x (s : State) : (s.consumeButtons).x = s.x := rfl
@[simp] theorem State.consumeButtons_dmem (s : State) : (s.consumeButtons).dmem = s.dmem := rfl
@[simp] theorem State.consumeButtons_pc (s : State) : (s.consumeButtons).pc = s.pc := rfl
@[simp] theorem State.consumeButtons_flags (s : State) : (s.consumeButtons).flags = s.flags := rfl
@[simp] theorem State.consumeButtons_cs (s : State) : (s.consumeButtons).cs = s.cs := rfl
@[simp] theorem State.consumeButtons_wp (s : State) : (s.consumeButtons).wp = s.wp := rfl
@[simp] theorem State.consumeButtons_rand (s : State) : (s.consumeButtons).rand = s.rand := rfl
@[simp] theorem State.consumeButtons_pixBack (s : State) : (s.consumeButtons).pixBack = s.pixBack := rfl
@[simp] theorem State.consumeButtons_pixFront (s : State) : (s.consumeButtons).pixFront = s.pixFront := rfl
@[simp] theorem State.consumeButtons_pixLatch (s : State) : (s.consumeButtons).pixLatch = s.pixLatch := rfl
@[simp] theorem State.consumeButtons_penX (s : State) : (s.consumeButtons).penX = s.penX := rfl
@[simp] theorem State.consumeButtons_penY (s : State) : (s.consumeButtons).penY = s.penY := rfl
@[simp] theorem State.consumeButtons_mqStage (s : State) : (s.consumeButtons).mqStage = s.mqStage := rfl
@[simp] theorem State.consumeButtons_mqShown (s : State) : (s.consumeButtons).mqShown = s.mqShown := rfl
@[simp] theorem State.consumeButtons_mqCursor (s : State) : (s.consumeButtons).mqCursor = s.mqCursor := rfl
@[simp] theorem State.consumeButtons_numShown (s : State) : (s.consumeButtons).numShown = s.numShown := rfl
@[simp] theorem State.consumeButtons_numDebug (s : State) : (s.consumeButtons).numDebug = s.numDebug := rfl
@[simp] theorem State.consumeButtons_buttons (s : State) : (s.consumeButtons).buttons = releaseMomentary s.buttons := rfl
@[simp] theorem State.consumeButtons_imem (s : State) : (s.consumeButtons).imem = s.imem := rfl
@[simp] theorem State.consumeButtons_source (s : State) : (s.consumeButtons).source = s.source := rfl
@[simp] theorem State.consumeButtons_runState (s : State) : (s.consumeButtons).runState = s.runState := rfl
@[simp] theorem State.consumeButtons_stopRequested (s : State) : (s.consumeButtons).stopRequested = s.stopRequested := rfl
@[simp] theorem State.consumeButtons_speed (s : State) : (s.consumeButtons).speed = s.speed := rfl
@[simp] theorem State.consumeButtons_report (s : State) : (s.consumeButtons).report = s.report := rfl
@[simp] theorem State.consumeButtons_drawCount (s : State) : (s.consumeButtons).drawCount = s.drawCount := rfl
@[simp] theorem State.consumeButtons_readReg (s : State) (j : RegIx) : (s.consumeButtons).readReg j = s.readReg j := rfl
@[simp] theorem State.consumeButtons_readCell (s : State) (k : Nat) : (s.consumeButtons).readCell k = s.readCell k := rfl

@[simp] theorem State.haltRun_x (s : State) : (s.haltRun).x = s.x := rfl
@[simp] theorem State.haltRun_dmem (s : State) : (s.haltRun).dmem = s.dmem := rfl
@[simp] theorem State.haltRun_pc (s : State) : (s.haltRun).pc = s.pc := rfl
@[simp] theorem State.haltRun_flags (s : State) : (s.haltRun).flags = s.flags := rfl
@[simp] theorem State.haltRun_cs (s : State) : (s.haltRun).cs = s.cs := rfl
@[simp] theorem State.haltRun_wp (s : State) : (s.haltRun).wp = s.wp := rfl
@[simp] theorem State.haltRun_rand (s : State) : (s.haltRun).rand = s.rand := rfl
@[simp] theorem State.haltRun_pixBack (s : State) : (s.haltRun).pixBack = s.pixBack := rfl
@[simp] theorem State.haltRun_pixFront (s : State) : (s.haltRun).pixFront = s.pixFront := rfl
@[simp] theorem State.haltRun_pixLatch (s : State) : (s.haltRun).pixLatch = s.pixLatch := rfl
@[simp] theorem State.haltRun_penX (s : State) : (s.haltRun).penX = s.penX := rfl
@[simp] theorem State.haltRun_penY (s : State) : (s.haltRun).penY = s.penY := rfl
@[simp] theorem State.haltRun_mqStage (s : State) : (s.haltRun).mqStage = s.mqStage := rfl
@[simp] theorem State.haltRun_mqShown (s : State) : (s.haltRun).mqShown = s.mqShown := rfl
@[simp] theorem State.haltRun_mqCursor (s : State) : (s.haltRun).mqCursor = s.mqCursor := rfl
@[simp] theorem State.haltRun_numShown (s : State) : (s.haltRun).numShown = s.numShown := rfl
@[simp] theorem State.haltRun_numDebug (s : State) : (s.haltRun).numDebug = s.numDebug := rfl
@[simp] theorem State.haltRun_buttons (s : State) : (s.haltRun).buttons = s.buttons := rfl
@[simp] theorem State.haltRun_imem (s : State) : (s.haltRun).imem = s.imem := rfl
@[simp] theorem State.haltRun_source (s : State) : (s.haltRun).source = s.source := rfl
@[simp] theorem State.haltRun_runState (s : State) : (s.haltRun).runState = .halted := rfl
@[simp] theorem State.haltRun_stopRequested (s : State) : (s.haltRun).stopRequested = s.stopRequested := rfl
@[simp] theorem State.haltRun_speed (s : State) : (s.haltRun).speed = s.speed := rfl
@[simp] theorem State.haltRun_report (s : State) : (s.haltRun).report = s.report := rfl
@[simp] theorem State.haltRun_drawCount (s : State) : (s.haltRun).drawCount = s.drawCount := rfl
@[simp] theorem State.haltRun_readReg (s : State) (j : RegIx) : (s.haltRun).readReg j = s.readReg j := rfl
@[simp] theorem State.haltRun_readCell (s : State) (k : Nat) : (s.haltRun).readCell k = s.readCell k := rfl

@[simp] theorem State.complete_x (s : State) (a : PcAction) (r : Report) : (s.complete a r).x = s.x.set (0#5 : RegIx).toNat 0#16 (0#5 : RegIx).isLt := rfl
@[simp] theorem State.complete_dmem (s : State) (a : PcAction) (r : Report) : (s.complete a r).dmem = Memory.write s.dmem 0 0#16 := rfl
@[simp] theorem State.complete_pc (s : State) (a : PcAction) (r : Report) : (s.complete a r).pc = a.apply s.pc := rfl
@[simp] theorem State.complete_flags (s : State) (a : PcAction) (r : Report) : (s.complete a r).flags = s.flags := rfl
@[simp] theorem State.complete_cs (s : State) (a : PcAction) (r : Report) : (s.complete a r).cs = last16 s.cs := congrArg last16 (rfl : s.reroll.forceZeros.cs = s.cs)
@[simp] theorem State.complete_wp (s : State) (a : PcAction) (r : Report) : (s.complete a r).wp = s.wp := rfl
@[simp] theorem State.complete_rand (s : State) (a : PcAction) (r : Report) : (s.complete a r).rand = Config.randDraw s.drawCount := rfl
@[simp] theorem State.complete_pixBack (s : State) (a : PcAction) (r : Report) : (s.complete a r).pixBack = s.pixBack := rfl
@[simp] theorem State.complete_pixFront (s : State) (a : PcAction) (r : Report) : (s.complete a r).pixFront = s.pixFront := rfl
@[simp] theorem State.complete_pixLatch (s : State) (a : PcAction) (r : Report) : (s.complete a r).pixLatch = s.pixLatch := rfl
@[simp] theorem State.complete_penX (s : State) (a : PcAction) (r : Report) : (s.complete a r).penX = s.penX := rfl
@[simp] theorem State.complete_penY (s : State) (a : PcAction) (r : Report) : (s.complete a r).penY = s.penY := rfl
@[simp] theorem State.complete_mqStage (s : State) (a : PcAction) (r : Report) : (s.complete a r).mqStage = s.mqStage := rfl
@[simp] theorem State.complete_mqShown (s : State) (a : PcAction) (r : Report) : (s.complete a r).mqShown = s.mqShown := rfl
@[simp] theorem State.complete_mqCursor (s : State) (a : PcAction) (r : Report) : (s.complete a r).mqCursor = s.mqCursor := rfl
@[simp] theorem State.complete_numShown (s : State) (a : PcAction) (r : Report) : (s.complete a r).numShown = s.numShown := rfl
@[simp] theorem State.complete_numDebug (s : State) (a : PcAction) (r : Report) : (s.complete a r).numDebug = s.numDebug := rfl
@[simp] theorem State.complete_buttons (s : State) (a : PcAction) (r : Report) : (s.complete a r).buttons = s.buttons := rfl
@[simp] theorem State.complete_imem (s : State) (a : PcAction) (r : Report) : (s.complete a r).imem = s.imem := rfl
@[simp] theorem State.complete_source (s : State) (a : PcAction) (r : Report) : (s.complete a r).source = s.source := rfl
@[simp] theorem State.complete_runState (s : State) (a : PcAction) (r : Report) : (s.complete a r).runState = s.runState := rfl
@[simp] theorem State.complete_stopRequested (s : State) (a : PcAction) (r : Report) : (s.complete a r).stopRequested = s.stopRequested := rfl
@[simp] theorem State.complete_speed (s : State) (a : PcAction) (r : Report) : (s.complete a r).speed = s.speed := rfl
@[simp] theorem State.complete_report (s : State) (a : PcAction) (r : Report) : (s.complete a r).report = r := rfl
@[simp] theorem State.complete_drawCount (s : State) (a : PcAction) (r : Report) : (s.complete a r).drawCount = s.drawCount + 1 := rfl

@[simp] theorem State.setRunState_x (s : State) (r : RunState) : (s.setRunState r).x = s.x := rfl
@[simp] theorem State.setRunState_dmem (s : State) (r : RunState) : (s.setRunState r).dmem = s.dmem := rfl
@[simp] theorem State.setRunState_pc (s : State) (r : RunState) : (s.setRunState r).pc = s.pc := rfl
@[simp] theorem State.setRunState_flags (s : State) (r : RunState) : (s.setRunState r).flags = s.flags := rfl
@[simp] theorem State.setRunState_cs (s : State) (r : RunState) : (s.setRunState r).cs = s.cs := rfl
@[simp] theorem State.setRunState_wp (s : State) (r : RunState) : (s.setRunState r).wp = s.wp := rfl
@[simp] theorem State.setRunState_rand (s : State) (r : RunState) : (s.setRunState r).rand = s.rand := rfl
@[simp] theorem State.setRunState_pixBack (s : State) (r : RunState) : (s.setRunState r).pixBack = s.pixBack := rfl
@[simp] theorem State.setRunState_pixFront (s : State) (r : RunState) : (s.setRunState r).pixFront = s.pixFront := rfl
@[simp] theorem State.setRunState_pixLatch (s : State) (r : RunState) : (s.setRunState r).pixLatch = s.pixLatch := rfl
@[simp] theorem State.setRunState_penX (s : State) (r : RunState) : (s.setRunState r).penX = s.penX := rfl
@[simp] theorem State.setRunState_penY (s : State) (r : RunState) : (s.setRunState r).penY = s.penY := rfl
@[simp] theorem State.setRunState_mqStage (s : State) (r : RunState) : (s.setRunState r).mqStage = s.mqStage := rfl
@[simp] theorem State.setRunState_mqShown (s : State) (r : RunState) : (s.setRunState r).mqShown = s.mqShown := rfl
@[simp] theorem State.setRunState_mqCursor (s : State) (r : RunState) : (s.setRunState r).mqCursor = s.mqCursor := rfl
@[simp] theorem State.setRunState_numShown (s : State) (r : RunState) : (s.setRunState r).numShown = s.numShown := rfl
@[simp] theorem State.setRunState_numDebug (s : State) (r : RunState) : (s.setRunState r).numDebug = s.numDebug := rfl
@[simp] theorem State.setRunState_buttons (s : State) (r : RunState) : (s.setRunState r).buttons = s.buttons := rfl
@[simp] theorem State.setRunState_imem (s : State) (r : RunState) : (s.setRunState r).imem = s.imem := rfl
@[simp] theorem State.setRunState_source (s : State) (r : RunState) : (s.setRunState r).source = s.source := rfl
@[simp] theorem State.setRunState_runState (s : State) (r : RunState) : (s.setRunState r).runState = r := rfl
@[simp] theorem State.setRunState_stopRequested (s : State) (r : RunState) : (s.setRunState r).stopRequested = s.stopRequested := rfl
@[simp] theorem State.setRunState_speed (s : State) (r : RunState) : (s.setRunState r).speed = s.speed := rfl
@[simp] theorem State.setRunState_report (s : State) (r : RunState) : (s.setRunState r).report = s.report := rfl
@[simp] theorem State.setRunState_drawCount (s : State) (r : RunState) : (s.setRunState r).drawCount = s.drawCount := rfl
@[simp] theorem State.setRunState_readReg (s : State) (r : RunState) (j : RegIx) : (s.setRunState r).readReg j = s.readReg j := rfl
@[simp] theorem State.setRunState_readCell (s : State) (r : RunState) (k : Nat) : (s.setRunState r).readCell k = s.readCell k := rfl

@[simp] theorem State.setStop_x (s : State) (b : Bool) : (s.setStop b).x = s.x := rfl
@[simp] theorem State.setStop_dmem (s : State) (b : Bool) : (s.setStop b).dmem = s.dmem := rfl
@[simp] theorem State.setStop_pc (s : State) (b : Bool) : (s.setStop b).pc = s.pc := rfl
@[simp] theorem State.setStop_flags (s : State) (b : Bool) : (s.setStop b).flags = s.flags := rfl
@[simp] theorem State.setStop_cs (s : State) (b : Bool) : (s.setStop b).cs = s.cs := rfl
@[simp] theorem State.setStop_wp (s : State) (b : Bool) : (s.setStop b).wp = s.wp := rfl
@[simp] theorem State.setStop_rand (s : State) (b : Bool) : (s.setStop b).rand = s.rand := rfl
@[simp] theorem State.setStop_pixBack (s : State) (b : Bool) : (s.setStop b).pixBack = s.pixBack := rfl
@[simp] theorem State.setStop_pixFront (s : State) (b : Bool) : (s.setStop b).pixFront = s.pixFront := rfl
@[simp] theorem State.setStop_pixLatch (s : State) (b : Bool) : (s.setStop b).pixLatch = s.pixLatch := rfl
@[simp] theorem State.setStop_penX (s : State) (b : Bool) : (s.setStop b).penX = s.penX := rfl
@[simp] theorem State.setStop_penY (s : State) (b : Bool) : (s.setStop b).penY = s.penY := rfl
@[simp] theorem State.setStop_mqStage (s : State) (b : Bool) : (s.setStop b).mqStage = s.mqStage := rfl
@[simp] theorem State.setStop_mqShown (s : State) (b : Bool) : (s.setStop b).mqShown = s.mqShown := rfl
@[simp] theorem State.setStop_mqCursor (s : State) (b : Bool) : (s.setStop b).mqCursor = s.mqCursor := rfl
@[simp] theorem State.setStop_numShown (s : State) (b : Bool) : (s.setStop b).numShown = s.numShown := rfl
@[simp] theorem State.setStop_numDebug (s : State) (b : Bool) : (s.setStop b).numDebug = s.numDebug := rfl
@[simp] theorem State.setStop_buttons (s : State) (b : Bool) : (s.setStop b).buttons = s.buttons := rfl
@[simp] theorem State.setStop_imem (s : State) (b : Bool) : (s.setStop b).imem = s.imem := rfl
@[simp] theorem State.setStop_source (s : State) (b : Bool) : (s.setStop b).source = s.source := rfl
@[simp] theorem State.setStop_runState (s : State) (b : Bool) : (s.setStop b).runState = s.runState := rfl
@[simp] theorem State.setStop_stopRequested (s : State) (b : Bool) : (s.setStop b).stopRequested = b := rfl
@[simp] theorem State.setStop_speed (s : State) (b : Bool) : (s.setStop b).speed = s.speed := rfl
@[simp] theorem State.setStop_report (s : State) (b : Bool) : (s.setStop b).report = s.report := rfl
@[simp] theorem State.setStop_drawCount (s : State) (b : Bool) : (s.setStop b).drawCount = s.drawCount := rfl
@[simp] theorem State.setStop_readReg (s : State) (b : Bool) (j : RegIx) : (s.setStop b).readReg j = s.readReg j := rfl
@[simp] theorem State.setStop_readCell (s : State) (b : Bool) (k : Nat) : (s.setStop b).readCell k = s.readCell k := rfl

@[simp] theorem State.setSpeed_x (s : State) (n : Nat) : (s.setSpeed n).x = s.x := rfl
@[simp] theorem State.setSpeed_dmem (s : State) (n : Nat) : (s.setSpeed n).dmem = s.dmem := rfl
@[simp] theorem State.setSpeed_pc (s : State) (n : Nat) : (s.setSpeed n).pc = s.pc := rfl
@[simp] theorem State.setSpeed_flags (s : State) (n : Nat) : (s.setSpeed n).flags = s.flags := rfl
@[simp] theorem State.setSpeed_cs (s : State) (n : Nat) : (s.setSpeed n).cs = s.cs := rfl
@[simp] theorem State.setSpeed_wp (s : State) (n : Nat) : (s.setSpeed n).wp = s.wp := rfl
@[simp] theorem State.setSpeed_rand (s : State) (n : Nat) : (s.setSpeed n).rand = s.rand := rfl
@[simp] theorem State.setSpeed_pixBack (s : State) (n : Nat) : (s.setSpeed n).pixBack = s.pixBack := rfl
@[simp] theorem State.setSpeed_pixFront (s : State) (n : Nat) : (s.setSpeed n).pixFront = s.pixFront := rfl
@[simp] theorem State.setSpeed_pixLatch (s : State) (n : Nat) : (s.setSpeed n).pixLatch = s.pixLatch := rfl
@[simp] theorem State.setSpeed_penX (s : State) (n : Nat) : (s.setSpeed n).penX = s.penX := rfl
@[simp] theorem State.setSpeed_penY (s : State) (n : Nat) : (s.setSpeed n).penY = s.penY := rfl
@[simp] theorem State.setSpeed_mqStage (s : State) (n : Nat) : (s.setSpeed n).mqStage = s.mqStage := rfl
@[simp] theorem State.setSpeed_mqShown (s : State) (n : Nat) : (s.setSpeed n).mqShown = s.mqShown := rfl
@[simp] theorem State.setSpeed_mqCursor (s : State) (n : Nat) : (s.setSpeed n).mqCursor = s.mqCursor := rfl
@[simp] theorem State.setSpeed_numShown (s : State) (n : Nat) : (s.setSpeed n).numShown = s.numShown := rfl
@[simp] theorem State.setSpeed_numDebug (s : State) (n : Nat) : (s.setSpeed n).numDebug = s.numDebug := rfl
@[simp] theorem State.setSpeed_buttons (s : State) (n : Nat) : (s.setSpeed n).buttons = s.buttons := rfl
@[simp] theorem State.setSpeed_imem (s : State) (n : Nat) : (s.setSpeed n).imem = s.imem := rfl
@[simp] theorem State.setSpeed_source (s : State) (n : Nat) : (s.setSpeed n).source = s.source := rfl
@[simp] theorem State.setSpeed_runState (s : State) (n : Nat) : (s.setSpeed n).runState = s.runState := rfl
@[simp] theorem State.setSpeed_stopRequested (s : State) (n : Nat) : (s.setSpeed n).stopRequested = s.stopRequested := rfl
@[simp] theorem State.setSpeed_speed (s : State) (n : Nat) : (s.setSpeed n).speed = n := rfl
@[simp] theorem State.setSpeed_report (s : State) (n : Nat) : (s.setSpeed n).report = s.report := rfl
@[simp] theorem State.setSpeed_drawCount (s : State) (n : Nat) : (s.setSpeed n).drawCount = s.drawCount := rfl
@[simp] theorem State.setSpeed_readReg (s : State) (n : Nat) (j : RegIx) : (s.setSpeed n).readReg j = s.readReg j := rfl
@[simp] theorem State.setSpeed_readCell (s : State) (n : Nat) (k : Nat) : (s.setSpeed n).readCell k = s.readCell k := rfl

@[simp] theorem State.setButtons_x (s : State) (b : Buttons) : (s.setButtons b).x = s.x := rfl
@[simp] theorem State.setButtons_dmem (s : State) (b : Buttons) : (s.setButtons b).dmem = s.dmem := rfl
@[simp] theorem State.setButtons_pc (s : State) (b : Buttons) : (s.setButtons b).pc = s.pc := rfl
@[simp] theorem State.setButtons_flags (s : State) (b : Buttons) : (s.setButtons b).flags = s.flags := rfl
@[simp] theorem State.setButtons_cs (s : State) (b : Buttons) : (s.setButtons b).cs = s.cs := rfl
@[simp] theorem State.setButtons_wp (s : State) (b : Buttons) : (s.setButtons b).wp = s.wp := rfl
@[simp] theorem State.setButtons_rand (s : State) (b : Buttons) : (s.setButtons b).rand = s.rand := rfl
@[simp] theorem State.setButtons_pixBack (s : State) (b : Buttons) : (s.setButtons b).pixBack = s.pixBack := rfl
@[simp] theorem State.setButtons_pixFront (s : State) (b : Buttons) : (s.setButtons b).pixFront = s.pixFront := rfl
@[simp] theorem State.setButtons_pixLatch (s : State) (b : Buttons) : (s.setButtons b).pixLatch = s.pixLatch := rfl
@[simp] theorem State.setButtons_penX (s : State) (b : Buttons) : (s.setButtons b).penX = s.penX := rfl
@[simp] theorem State.setButtons_penY (s : State) (b : Buttons) : (s.setButtons b).penY = s.penY := rfl
@[simp] theorem State.setButtons_mqStage (s : State) (b : Buttons) : (s.setButtons b).mqStage = s.mqStage := rfl
@[simp] theorem State.setButtons_mqShown (s : State) (b : Buttons) : (s.setButtons b).mqShown = s.mqShown := rfl
@[simp] theorem State.setButtons_mqCursor (s : State) (b : Buttons) : (s.setButtons b).mqCursor = s.mqCursor := rfl
@[simp] theorem State.setButtons_numShown (s : State) (b : Buttons) : (s.setButtons b).numShown = s.numShown := rfl
@[simp] theorem State.setButtons_numDebug (s : State) (b : Buttons) : (s.setButtons b).numDebug = s.numDebug := rfl
@[simp] theorem State.setButtons_buttons (s : State) (b : Buttons) : (s.setButtons b).buttons = b := rfl
@[simp] theorem State.setButtons_imem (s : State) (b : Buttons) : (s.setButtons b).imem = s.imem := rfl
@[simp] theorem State.setButtons_source (s : State) (b : Buttons) : (s.setButtons b).source = s.source := rfl
@[simp] theorem State.setButtons_runState (s : State) (b : Buttons) : (s.setButtons b).runState = s.runState := rfl
@[simp] theorem State.setButtons_stopRequested (s : State) (b : Buttons) : (s.setButtons b).stopRequested = s.stopRequested := rfl
@[simp] theorem State.setButtons_speed (s : State) (b : Buttons) : (s.setButtons b).speed = s.speed := rfl
@[simp] theorem State.setButtons_report (s : State) (b : Buttons) : (s.setButtons b).report = s.report := rfl
@[simp] theorem State.setButtons_drawCount (s : State) (b : Buttons) : (s.setButtons b).drawCount = s.drawCount := rfl
@[simp] theorem State.setButtons_readReg (s : State) (b : Buttons) (j : RegIx) : (s.setButtons b).readReg j = s.readReg j := rfl
@[simp] theorem State.setButtons_readCell (s : State) (b : Buttons) (k : Nat) : (s.setButtons b).readCell k = s.readCell k := rfl

@[simp] theorem State.setProgram_x (s : State) (p : List InstrWord) (l : List Line) : (s.setProgram p l).x = s.x := rfl
@[simp] theorem State.setProgram_dmem (s : State) (p : List InstrWord) (l : List Line) : (s.setProgram p l).dmem = s.dmem := rfl
@[simp] theorem State.setProgram_pc (s : State) (p : List InstrWord) (l : List Line) : (s.setProgram p l).pc = s.pc := rfl
@[simp] theorem State.setProgram_flags (s : State) (p : List InstrWord) (l : List Line) : (s.setProgram p l).flags = s.flags := rfl
@[simp] theorem State.setProgram_cs (s : State) (p : List InstrWord) (l : List Line) : (s.setProgram p l).cs = s.cs := rfl
@[simp] theorem State.setProgram_wp (s : State) (p : List InstrWord) (l : List Line) : (s.setProgram p l).wp = s.wp := rfl
@[simp] theorem State.setProgram_rand (s : State) (p : List InstrWord) (l : List Line) : (s.setProgram p l).rand = s.rand := rfl
@[simp] theorem State.setProgram_pixBack (s : State) (p : List InstrWord) (l : List Line) : (s.setProgram p l).pixBack = s.pixBack := rfl
@[simp] theorem State.setProgram_pixFront (s : State) (p : List InstrWord) (l : List Line) : (s.setProgram p l).pixFront = s.pixFront := rfl
@[simp] theorem State.setProgram_pixLatch (s : State) (p : List InstrWord) (l : List Line) : (s.setProgram p l).pixLatch = s.pixLatch := rfl
@[simp] theorem State.setProgram_penX (s : State) (p : List InstrWord) (l : List Line) : (s.setProgram p l).penX = s.penX := rfl
@[simp] theorem State.setProgram_penY (s : State) (p : List InstrWord) (l : List Line) : (s.setProgram p l).penY = s.penY := rfl
@[simp] theorem State.setProgram_mqStage (s : State) (p : List InstrWord) (l : List Line) : (s.setProgram p l).mqStage = s.mqStage := rfl
@[simp] theorem State.setProgram_mqShown (s : State) (p : List InstrWord) (l : List Line) : (s.setProgram p l).mqShown = s.mqShown := rfl
@[simp] theorem State.setProgram_mqCursor (s : State) (p : List InstrWord) (l : List Line) : (s.setProgram p l).mqCursor = s.mqCursor := rfl
@[simp] theorem State.setProgram_numShown (s : State) (p : List InstrWord) (l : List Line) : (s.setProgram p l).numShown = s.numShown := rfl
@[simp] theorem State.setProgram_numDebug (s : State) (p : List InstrWord) (l : List Line) : (s.setProgram p l).numDebug = s.numDebug := rfl
@[simp] theorem State.setProgram_buttons (s : State) (p : List InstrWord) (l : List Line) : (s.setProgram p l).buttons = s.buttons := rfl
@[simp] theorem State.setProgram_imem (s : State) (p : List InstrWord) (l : List Line) : (s.setProgram p l).imem = p := rfl
@[simp] theorem State.setProgram_source (s : State) (p : List InstrWord) (l : List Line) : (s.setProgram p l).source = l := rfl
@[simp] theorem State.setProgram_runState (s : State) (p : List InstrWord) (l : List Line) : (s.setProgram p l).runState = s.runState := rfl
@[simp] theorem State.setProgram_stopRequested (s : State) (p : List InstrWord) (l : List Line) : (s.setProgram p l).stopRequested = s.stopRequested := rfl
@[simp] theorem State.setProgram_speed (s : State) (p : List InstrWord) (l : List Line) : (s.setProgram p l).speed = s.speed := rfl
@[simp] theorem State.setProgram_report (s : State) (p : List InstrWord) (l : List Line) : (s.setProgram p l).report = s.report := rfl
@[simp] theorem State.setProgram_drawCount (s : State) (p : List InstrWord) (l : List Line) : (s.setProgram p l).drawCount = s.drawCount := rfl
@[simp] theorem State.setProgram_readReg (s : State) (p : List InstrWord) (l : List Line) (j : RegIx) : (s.setProgram p l).readReg j = s.readReg j := rfl
@[simp] theorem State.setProgram_readCell (s : State) (p : List InstrWord) (l : List Line) (k : Nat) : (s.setProgram p l).readCell k = s.readCell k := rfl

end Sys2Proof.Machine
end

