-- ==== Sys2Proof/Laws/Ops.lean ====
section
/-! SUPPORT. What each shared operation can do, said once: registers, cells, the completion, a raised fault, the
effective address, the ports. -/

namespace Sys2Proof.Machine

@[simp] theorem State.readReg_writeReg (s : State) (i j : RegIx) (v : Word) :
    (s.writeReg i v).readReg j = if j = i then v else s.readReg j := by
  simp only [State.readReg, State.writeReg, Vector.getElem_set]
  by_cases h : j = i
  · subst h; simp
  · have : i.toNat ≠ j.toNat := fun e => h (BitVec.eq_of_toNat_eq e).symm
    simp [h, this]

@[simp] theorem State.readCell_writeCell (s : State) (a b : Nat) (v : Word) :
    (s.writeCell a v).readCell b = if b = a then v else s.readCell b :=
  Memory.read_write s.dmem a b v

@[simp] theorem State.readWP_writeWP (s : State) (m n : PortIx) (v : Word) :
    (s.writeWP m v).readWP n = if n = m then v else s.readWP n := by
  simp only [State.readWP, State.writeWP, Vector.getElem_set]
  by_cases h : n = m
  · subst h; simp
  · have : m.toNat ≠ n.toNat := fun e => h (BitVec.eq_of_toNat_eq e).symm
    simp [h, this]

/-- After the completion R0 reads 0 and every other register reads as before it. -/
@[simp] theorem State.complete_readReg (s : State) (a : PcAction) (r : Report) (i : RegIx) :
    (s.complete a r).readReg i = if i = 0#5 then 0#16 else s.readReg i :=
  State.readReg_writeReg s 0#5 i 0#16

/-- After the completion D0 reads 0 and every other cell reads as before it. -/
@[simp] theorem State.complete_readCell (s : State) (a : PcAction) (r : Report) (c : Nat) :
    (s.complete a r).readCell c = if c = 0 then 0#16 else s.readCell c :=
  Memory.read_write s.dmem 0 c 0#16

@[simp] theorem State.complete_readWP (s : State) (a : PcAction) (r : Report) (n : PortIx) :
    (s.complete a r).readWP n = s.readWP n := rfl

/-- The completion keeps the canonical form of memory. -/
theorem State.complete_wf {s : State} (h : Memory.wf s.dmem = true) (a : PcAction) (r : Report) :
    Memory.wf (s.complete a r).dmem = true := by
  rw [State.complete_dmem]
  exact Memory.write_wf h (by decide)

/-- The cut leaves at most 16 entries. -/
theorem last16_length_le (cs : List Word) : (last16 cs).length ≤ Config.stackDepth := by
  simp only [last16, List.length_drop]; omega

/-- A stack of at most 16 entries is not cut. -/
theorem last16_of_le {cs : List Word} (h : cs.length ≤ Config.stackDepth) : last16 cs = cs := by
  simp [last16, Nat.sub_eq_zero_of_le h]

/-- What an instruction that ran answers. -/
@[simp] theorem finish_eq_next (s t : State) (a : PcAction) (r : Report) :
    finish s a r = .next t ↔ s.complete a r = t := by
  simp [finish]

@[simp] theorem finish_ne_fault (s : State) (a : PcAction) (r : Report) (f : Fault) :
    finish s a r ≠ .fault f := by simp [finish]

@[simp] theorem finish_ne_refused (s : State) (a : PcAction) (r : Report) (f : Refusal) :
    finish s a r ≠ .refused f := by simp [finish]

@[simp] theorem raise_eq (f : Fault) : raise f = .fault f := rfl

/-- What `withCell` can answer: the continuation on a cell that exists, or the address fault. -/
theorem withCell_cases (s : State) (rb : RegIx) (off : Offset) (k : Nat → Result) :
    (effectiveAddress (s.readReg rb) off < Config.dataCells ∧
        withCell s rb off k = k (effectiveAddress (s.readReg rb) off)) ∨
      (Config.dataCells ≤ effectiveAddress (s.readReg rb) off ∧
        withCell s rb off k = .fault (.dataAddressFault (effectiveAddress (s.readReg rb) off))) := by
  simp only [withCell, raise_eq]
  by_cases h : effectiveAddress (s.readReg rb) off < Config.dataCells
  · exact .inl ⟨h, if_pos h⟩
  · exact .inr ⟨Nat.le_of_not_lt h, if_neg h⟩

/-- What `aluResult` answers: always the next state after the completion. -/
theorem aluResult_next (s : State) (rd : RegIx) (r : Word) :
    aluResult s rd r = .next (((s.writeReg rd r).setFlags (deriveFlags r)).complete .next .completed) := rfl

/-- The flags an instruction derives are a legal state. -/
theorem deriveFlags_legal (r : Word) : (deriveFlags r).legal = true := by
  by_cases h0 : r = 0#16
  · subst h0; decide
  · cases h : r.getLsbD 15 <;> simp [deriveFlags, Flags.legal, Flags.ofClass, h0, h]

theorem Flags.ofClass_legal (c : FlagClass) : (Flags.ofClass c).legal = true := by
  cases c <;> decide

/-- Every port number is one of the eight. -/
theorem portIx_cases (n : PortIx) :
    n = 0#3 ∨ n = 1#3 ∨ n = 2#3 ∨ n = 3#3 ∨ n = 4#3 ∨ n = 5#3 ∨ n = 6#3 ∨ n = 7#3 := by
  revert n; decide

/-- Everything a write port's action leaves alone: all but the devices. -/
structure DevicesOnly (s t : State) : Prop where
  x : t.x = s.x
  dmem : t.dmem = s.dmem
  pc : t.pc = s.pc
  flags : t.flags = s.flags
  cs : t.cs = s.cs
  rand : t.rand = s.rand
  buttons : t.buttons = s.buttons
  imem : t.imem = s.imem
  source : t.source = s.source
  runState : t.runState = s.runState
  stopRequested : t.stopRequested = s.stopRequested
  speed : t.speed = s.speed
  drawCount : t.drawCount = s.drawCount

/-- What a port-0 write does, in all its four cases and both orders. -/
theorem writeMarqueeControl_cases (v : Word) (s : State) :
    writeMarqueeControl v s = s ∨ writeMarqueeControl v s = s.commitMarquee ∨
      writeMarqueeControl v s = s.clearMarquee ∨
      writeMarqueeControl v s = s.commitMarquee.clearMarquee ∨
      writeMarqueeControl v s = s.clearMarquee.commitMarquee := by
  unfold writeMarqueeControl
  split <;> simp [marqueeBoth]
  split <;> simp

/-- What a write port's action does: one of the device updates, with its report. -/
theorem portAction_cases (n : PortIx) (v : Word) (s : State) :
    (n = 0#3 ∧ portAction n v s = (writeMarqueeControl v s, .completed)) ∨
      (n = 1#3 ∧ portAction n v s = (s.appendMarquee (charCodeOf v), .completed)) ∨
      (n = 2#3 ∧ portAction n v s = (s.showNumber v, .completed)) ∨
      (n = 3#3 ∧ portAction n v s = (s.setPen (penXOf Config.xyLayout v) (penYOf Config.xyLayout v), .completed)) ∨
      (n = 4#3 ∧ portAction n v s = writeDraw s) ∨
      (n = 5#3 ∧ portAction n v s = (s.setLatch (bitOf v 0), .completed)) ∨
      (n = 6#3 ∧ portAction n v s = (s.fillBack, .completed)) ∨
      (n = 7#3 ∧ portAction n v s = (s.commitScreen, .completed)) := by
  rcases portIx_cases n with h | h | h | h | h | h | h | h <;> subst h <;> simp [portAction]

/-- A property of every device action's result is one of every port's: one case for each of the eight port actions. -/
theorem portAction_induction {P : State × Report → Prop} (n : PortIx) (v : Word) (s : State)
    (control : P (writeMarqueeControl v s, .completed)) (character : P (s.appendMarquee (charCodeOf v), .completed))
    (number : P (s.showNumber v, .completed))
    (pen : P (s.setPen (penXOf Config.xyLayout v) (penYOf Config.xyLayout v), .completed)) (draw : P (writeDraw s))
    (latch : P (s.setLatch (bitOf v 0), .completed)) (fill : P (s.fillBack, .completed))
    (commit : P (s.commitScreen, .completed)) : P (portAction n v s) := by
  unfold portAction
  split <;> assumption

/-- A port-4 write draws, or drops the pixel and reports it. -/
theorem writeDraw_cases (s : State) :
    (s.penInRange = true ∧ writeDraw s = (s.drawPixel, .completed)) ∨
      (s.penInRange = false ∧ writeDraw s = (s, .screenError s.penX s.penY)) := by
  cases h : s.penInRange <;> simp [writeDraw, h]

/-- A write port's action changes nothing but devices. -/
theorem portWrite_devicesOnly (n : PortIx) (v : Word) (s : State) : DevicesOnly s (portWrite n v s).1 := by
  apply portAction_induction (P := fun r => DevicesOnly s r.1)
  case control =>
    rcases writeMarqueeControl_cases v (s.writeWP n v) with h | h | h | h | h <;> rw [h] <;> constructor <;> rfl
  case draw =>
    rcases writeDraw_cases (s.writeWP n v) with ⟨_, h⟩ | ⟨_, h⟩ <;> rw [h] <;> constructor <;> rfl
  all_goals constructor <;> rfl

/-- What a port read gives and does. -/
theorem portRead_cases (n : PortIx) (s : State) :
    (n = 0#3 ∧ portRead n s = (packButtons s.buttons, s.consumeButtons)) ∨
      (n = 1#3 ∧ portRead n s = (s.rand, s)) ∨
      (n ≠ 0#3 ∧ n ≠ 1#3 ∧ portRead n s = (0#16, s)) := by
  rcases portIx_cases n with h | h | h | h | h | h | h | h <;> subst h <;> simp [portRead]

/-- A step is the fault of its fetch, the fault of its decode, or the meaning of the decoded instruction. -/
theorem step_cases (s : State) :
    (fetch s = none ∧ step s = .fault (.overrun s.pc)) ∨
      (∃ w e, fetch s = some w ∧ decode w = .error e ∧ step s = .fault (Fault.ofDecode e)) ∨
      (∃ w i, fetch s = some w ∧ decode w = .ok i ∧ step s = exec i s) := by
  unfold step
  cases hf : fetch s with
  | none => exact .inl ⟨rfl, rfl⟩
  | some w =>
    cases hd : decode w with
    | error e => exact .inr (.inl ⟨w, e, rfl, hd, by simp [hd]⟩)
    | ok i => exact .inr (.inr ⟨w, i, rfl, hd, by simp [hd]⟩)

end Sys2Proof.Machine
end

