-- ==== Sys2Proof/Laws/Exec.lean ====
section
/-! SUPPORT. What the larger operations can do, said once: the loads and stores, an executed instruction, a step, a
port write, the pixels of a screen, a placed field. -/

namespace Sys2Proof

/-- A field that fits the word, as a number. -/
theorem place_toNat {n : Nat} (v : BitVec n) (lo : Nat) (h : n + lo ≤ 32) : (place v lo).toNat = v.toNat * 2 ^ lo := by
  have h1 : v.toNat * 2 ^ lo < 2 ^ 32 :=
    calc v.toNat * 2 ^ lo < 2 ^ n * 2 ^ lo := by gcongr; exact v.isLt
      _ = 2 ^ (n + lo) := by rw [Nat.pow_add]
      _ ≤ 2 ^ 32 := Nat.pow_le_pow_right (by decide) h
  have h2 : v.toNat < 2 ^ 32 := lt_of_le_of_lt (Nat.le_mul_of_pos_right _ (by positivity)) h1
  simp only [place, BitVec.toNat_shiftLeft, BitVec.toNat_setWidth, Nat.mod_eq_of_lt h2, Nat.shiftLeft_eq]
  exact Nat.mod_eq_of_lt h1

/-- The opcode map has one code for each opcode. -/
@[simp] theorem Opcode.ofCode?_code (op : Opcode) : Opcode.ofCode? op.code = some op := by
  cases op <;> rfl

/-- A code that names an opcode is its code. -/
theorem Opcode.code_of_ofCode? : ∀ (c : BitVec 5) (op : Opcode), Opcode.ofCode? c = some op → c = op.code := by
  decide

/-- The codes that name no opcode are 20 to 31. -/
theorem Opcode.ofCode?_eq_none : ∀ c : BitVec 5, Opcode.ofCode? c = none ↔ 20 ≤ c.toNat := by
  decide

/-- The opcode field of a word, as a number. -/
theorem field_opcode_toNat (w : InstrWord) : (field w 0 5).toNat = w.toNat % 32 := by
  simp [field]

/-- A binary line has 32 characters. -/
@[simp] theorem wordLine_length (w : InstrWord) : (wordLine w).length = 32 := by simp [wordLine]

/-- The characters of a binary line, most significant bit first. -/
theorem wordLine_get (w : InstrWord) (k : Nat) (hk : k < 32) :
    (wordLine w)[k]? = some (if w.getLsbD (31 - k) then '1' else '0') := by
  simp [wordLine, hk]

end Sys2Proof

namespace Sys2Proof.Machine

/-- A jump target has the number of its address field. -/
@[simp] theorem targetOf_toNat (a : Addr) : (targetOf a).toNat = a.toNat := by
  have := a.isLt
  simp only [targetOf, BitVec.toNat_setWidth]
  omega

/-- What ST answers. -/
theorem execSt_eq (rv rb : RegIx) (off : Offset) (s : State) :
    execSt rv rb off s =
      if (s.readReg rb).toNat + off.toNat < 256 then
        finish (s.writeCell ((s.readReg rb).toNat + off.toNat) (s.readReg rv)) .next .completed
      else .fault (.dataAddressFault ((s.readReg rb).toNat + off.toNat)) := rfl

/-- What LD answers. -/
theorem execLd_eq (rd rb : RegIx) (off : Offset) (s : State) :
    execLd rd rb off s =
      if (s.readReg rb).toNat + off.toNat < 256 then
        finish (s.writeReg rd (s.readCell ((s.readReg rb).toNat + off.toNat))) .next .completed
      else .fault (.dataAddressFault ((s.readReg rb).toNat + off.toNat)) := rfl

/-- Every next state of an instruction is a completion of a state with the same draw index and the same program. -/
theorem exec_completes (i : Instr) (s t : State) (h : exec i s = .next t) :
    ∃ (s1 : State) (a : PcAction) (r : Report),
      t = s1.complete a r ∧ s1.drawCount = s.drawCount ∧ s1.imem = s.imem ∧ s1.source = s.source := by
  cases i with
  | st rv rb off =>
    simp only [exec, execSt_eq] at h
    split at h
    · exact ⟨_, _, _, ((finish_eq_next _ _ _ _).1 h).symm, rfl, rfl, rfl⟩
    · simp at h
  | ld rd rb off =>
    simp only [exec, execLd_eq] at h
    split at h
    · exact ⟨_, _, _, ((finish_eq_next _ _ _ _).1 h).symm, rfl, rfl, rfl⟩
    · simp at h
  | ret =>
    simp only [exec, execRet] at h
    split at h
    · simp at h
    · exact ⟨_, _, _, ((finish_eq_next _ _ _ _).1 h).symm, rfl, rfl, rfl⟩
  | ptSt rv n =>
    have d := portWrite_devicesOnly n (s.readReg rv) s
    exact ⟨_, _, _, ((finish_eq_next _ _ _ _).1 h).symm, d.drawCount, d.imem, d.source⟩
  | ptLd rd n =>
    refine ⟨_, _, _, ((finish_eq_next _ _ _ _).1 h).symm, ?_⟩
    rcases portRead_cases n s with ⟨_, e⟩ | ⟨_, e⟩ | ⟨_, _, e⟩ <;> rw [e] <;> exact ⟨rfl, rfl, rfl⟩
  | _ => exact ⟨_, _, _, ((finish_eq_next _ _ _ _).1 h).symm, rfl, rfl, rfl⟩

/-- A step that completes fetched a word that decodes, and ran its instruction. -/
theorem step_next {s t : State} (h : step s = .next t) :
    ∃ w i, fetch s = some w ∧ decode w = .ok i ∧ exec i s = .next t := by
  rcases step_cases s with ⟨_, e⟩ | ⟨w, _, _, _, e⟩ | ⟨w, i, h1, h2, e⟩
  · simp [e] at h
  · simp [e] at h
  · exact ⟨w, i, h1, h2, e ▸ h⟩

/-- After a port write its register holds the value, and the other port registers hold what they held. -/
theorem portWrite_readWP (n : PortIx) (v : Word) (s : State) (m : PortIx) :
    (portWrite n v s).1.readWP m = if m = n then v else s.readWP m := by
  have e : (portWrite n v s).1.wp = (s.writeWP n v).wp := by
    apply portAction_induction (P := fun r => r.1.wp = (s.writeWP n v).wp)
    case control =>
      rcases writeMarqueeControl_cases v (s.writeWP n v) with h | h | h | h | h <;> rw [h] <;> rfl
    case draw =>
      rcases writeDraw_cases (s.writeWP n v) with ⟨_, h⟩ | ⟨_, h⟩ <;> rw [h]
      rfl
    all_goals rfl
  rw [← State.readWP_writeWP]
  simp [State.readWP, e]

/-- A pixel after one pixel of the screen is set. -/
theorem Screen.pixel_setPixel (p : Screen) (r c row col : Nat) (b : Bool) (hr : r < 31) (hc : c < 31)
    (hrow : row < 31) (hcol : col < 31) :
    (p.setPixel r c b).pixel row col = if row = r ∧ col = c then b else p.pixel row col := by
  have e1 : p.setPixel r c b = p.set r (p[r].set c b hc) hr := dif_pos ⟨hr, hc⟩
  have e2 : ∀ q : Screen, q.pixel row col = q[row][col] := fun q => dif_pos ⟨hrow, hcol⟩
  rw [e1, e2, e2, Vector.getElem_set]
  by_cases h : r = row
  · subst h
    by_cases h' : c = col
    · subst h'; simp
    · simp [h', Ne.symm h']
  · simp [h, Ne.symm h]

/-- Every pixel of a filled screen holds the value. -/
theorem Screen.pixel_fill (b : Bool) (row col : Nat) (hrow : row < 31) (hcol : col < 31) :
    (Screen.fill b).pixel row col = b := by
  simp [Screen.pixel, Screen.fill, hrow, hcol]

end Sys2Proof.Machine
end

