-- ==== Sys2Proof/Laws/PerInstr.lean ====
section
/-! SUPPORT. The family EncodingFixedBits, one lemma per constructor: the word of an instruction has its opcode in the
low five bits and zero in every other fixed bit (spec/30_encoding.md R101 to R110, R140). -/

namespace Sys2Proof.Laws.EncodingFixedBits

/-- The word of `i` has `i`'s opcode in its low five bits and meets the mask and match of its opcode. -/
def Statement (i : Instr) : Prop :=
  field (encode i) 0 5 = i.opcode.code ∧ encode i &&& i.opcode.format.mask = i.opcode.matchWord

theorem nop : Statement (.nop) :=
  ⟨encodeN_op _, encodeN_mask _⟩

theorem add (rd : RegIx) (rs1 : RegIx) (rs2 : RegIx) : Statement (.add rd rs1 rs2) :=
  ⟨encodeR3_op _ _ _ _, encodeR3_mask _ _ _ _⟩

theorem sub (rd : RegIx) (rs1 : RegIx) (rs2 : RegIx) : Statement (.sub rd rs1 rs2) :=
  ⟨encodeR3_op _ _ _ _, encodeR3_mask _ _ _ _⟩

theorem xor (rd : RegIx) (rs1 : RegIx) (rs2 : RegIx) : Statement (.xor rd rs1 rs2) :=
  ⟨encodeR3_op _ _ _ _, encodeR3_mask _ _ _ _⟩

theorem or (rd : RegIx) (rs1 : RegIx) (rs2 : RegIx) : Statement (.or rd rs1 rs2) :=
  ⟨encodeR3_op _ _ _ _, encodeR3_mask _ _ _ _⟩

theorem and (rd : RegIx) (rs1 : RegIx) (rs2 : RegIx) : Statement (.and rd rs1 rs2) :=
  ⟨encodeR3_op _ _ _ _, encodeR3_mask _ _ _ _⟩

theorem rsh (rd : RegIx) (rs : RegIx) : Statement (.rsh rd rs) :=
  ⟨encodeR2_op _ _ _, encodeR2_mask _ _ _⟩

theorem adi (rd : RegIx) (rs : RegIx) (imm : Imm) : Statement (.adi rd rs imm) :=
  ⟨encodeI_op _ _ _ _, encodeI_mask _ _ _ _⟩

theorem st (rv : RegIx) (rb : RegIx) (off : Offset) : Statement (.st rv rb off) :=
  ⟨encodeS_op _ _ _ _, encodeS_mask _ _ _ _⟩

theorem ld (rd : RegIx) (rb : RegIx) (off : Offset) : Statement (.ld rd rb off) :=
  ⟨encodeL_op _ _ _ _, encodeL_mask _ _ _ _⟩

theorem ptSt (rv : RegIx) (port : PortIx) : Statement (.ptSt rv port) :=
  ⟨encodePS_op _ _ _, encodePS_mask _ _ _⟩

theorem ptLd (rd : RegIx) (port : PortIx) : Statement (.ptLd rd port) :=
  ⟨encodePL_op _ _ _, encodePL_mask _ _ _⟩

theorem jmp (addr : Addr) : Statement (.jmp addr) :=
  ⟨encodeJ_op _ _, encodeJ_mask _ _⟩

theorem cal (addr : Addr) : Statement (.cal addr) :=
  ⟨encodeJ_op _ _, encodeJ_mask _ _⟩

theorem ret : Statement (.ret) :=
  ⟨encodeN_op _, encodeN_mask _⟩

theorem beq (addr : Addr) : Statement (.beq addr) :=
  ⟨encodeJ_op _ _, encodeJ_mask _ _⟩

theorem bne (addr : Addr) : Statement (.bne addr) :=
  ⟨encodeJ_op _ _, encodeJ_mask _ _⟩

theorem blt (addr : Addr) : Statement (.blt addr) :=
  ⟨encodeJ_op _ _, encodeJ_mask _ _⟩

theorem bgt (addr : Addr) : Statement (.bgt addr) :=
  ⟨encodeJ_op _ _, encodeJ_mask _ _⟩

theorem hlt : Statement (.hlt) :=
  ⟨encodeN_op _, encodeN_mask _⟩

end Sys2Proof.Laws.EncodingFixedBits
end

