-- ==== Sys2Proof/Tests/Slice0.lean ====
section
/-! SUPPORT. Named tests, and for each statement with hypotheses a witness that meets them. Expected results are those
of spec/95_test_vectors.md (section numbers in the comments) or follow by hand from the rule a comment names. -/

namespace Sys2Proof.Tests

open Sys2Proof Sys2Proof.Machine

/-! Well-formedness: each check refuses an ill-formed term (spec/30_encoding.md R114, R131 to R133). -/

theorem test_wf_accepts : wellFormedOperands .add [.reg 1, .reg 2, .reg 31] = true := by decide
theorem test_wf_refuses_count_short : wellFormedOperands .add [.reg 1, .reg 2] = false := by decide
theorem test_wf_refuses_count_long : wellFormedOperands .ret [.num 5] = false := by decide
theorem test_wf_refuses_kind_number : wellFormedOperands .add [.reg 1, .reg 2, .num 5] = false := by decide
theorem test_wf_refuses_kind_register : wellFormedOperands .ptLd [.reg 1, .reg 2] = false := by decide
theorem test_wf_refuses_kind_other : wellFormedOperands .ld [.reg 1, .other, .num 0] = false := by decide
theorem test_wf_refuses_register_32 : wellFormedOperands .add [.reg 1, .reg 2, .reg 32] = false := by decide
theorem test_wf_refuses_port_8 : wellFormedOperands .ptSt [.reg 1, .port 8] = false := by decide
theorem test_wf_refuses_imm_65536 : wellFormedOperands .adi [.reg 1, .reg 0, .num 65536] = false := by decide
theorem test_wf_refuses_off_256 : wellFormedOperands .st [.reg 1, .reg 2, .num 256] = false := by decide
theorem test_wf_refuses_addr_2048 : wellFormedOperands .jmp [.num 2048] = false := by decide

/-- A line of 32 zeros. -/
def zeros : Line := List.replicate 32 '0'

theorem test_wf_image_accepts : wellFormedImage [zeros] = true := by decide
theorem test_wf_image_refuses_31 : wellFormedImage [List.replicate 31 '0'] = false := by decide
theorem test_wf_image_refuses_33 : wellFormedImage [List.replicate 33 '0'] = false := by decide
theorem test_wf_image_refuses_character : wellFormedImage [List.replicate 31 '0' ++ ['2']] = false := by decide
theorem test_wf_image_refuses_2049 : wellFormedImage (List.replicate 2049 zeros) = false := by
  have h : ¬ (List.replicate 2049 zeros).length ≤ Config.imemMax := by
    rw [List.length_replicate]; unfold Config.imemMax; omega
  simp only [wellFormedImage, h, decide_false, Bool.and_false]

/-! Decode: one word written out for every constructor (section 2). -/

theorem test_decode_nop : decode 0b00000000000000000000000000000000 = .ok .nop := by decide
theorem test_decode_add : decode 0b00000000000000011000100000100001 = .ok (.add 1 2 3) := by decide
theorem test_decode_sub : decode 0b00000000000000010000010000000010 = .ok (.sub 0 1 2) := by decide
theorem test_decode_xor : decode 0b00000000000000010000010001100011 = .ok (.xor 3 1 2) := by decide
theorem test_decode_or : decode 0b00000000000000010000010001100100 = .ok (.or 3 1 2) := by decide
theorem test_decode_and : decode 0b00000000000000010000010001100101 = .ok (.and 3 1 2) := by decide
theorem test_decode_rsh : decode 0b00000000000000000001010010000110 = .ok (.rsh 4 5) := by decide
theorem test_decode_adi : decode 0b00000001111101000000000000100111 = .ok (.adi 1 0 1000) := by decide
theorem test_decode_st : decode 0b00000000101000011000100000001000 = .ok (.st 2 3 10) := by decide
theorem test_decode_ld : decode 0b00000000101000011000000010001001 = .ok (.ld 4 3 10) := by decide
theorem test_decode_ptSt : decode 0b00000000000000001000100000001010 = .ok (.ptSt 2 1) := by decide
theorem test_decode_ptLd : decode 0b00000000000001000000000011001011 = .ok (.ptLd 6 1) := by decide
theorem test_decode_jmp : decode 0b00000000000000000000000010101100 = .ok (.jmp 5) := by decide
theorem test_decode_cal : decode 0b00000000000000000000000101001101 = .ok (.cal 10) := by decide
theorem test_decode_ret : decode 0b00000000000000000000000000001110 = .ok .ret := by decide
theorem test_decode_beq : decode 0b00000000000000000000000001101111 = .ok (.beq 3) := by decide
theorem test_decode_bne : decode 0b00000000000000000000000000110000 = .ok (.bne 1) := by decide
theorem test_decode_blt : decode 0b00000000000000000000000100110001 = .ok (.blt 9) := by decide
theorem test_decode_bgt : decode 0b00000000000000000000000000010010 = .ok (.bgt 0) := by decide
theorem test_decode_hlt : decode 0b00000000000000000000000000010011 = .ok .hlt := by decide

/-! Decode: largest fields (section 2) and refusals (section 3). -/

theorem test_decode_max_fields :
    decode 0x000FFFE1 = .ok (.add 31 31 31) ∧ decode 0x7FFFFFE7 = .ok (.adi 31 31 65535) ∧
    decode 0x0FFFFC08 = .ok (.st 31 31 255) ∧ decode 0x0FFF83E9 = .ok (.ld 31 31 255) ∧
    decode 0x0003FC0A = .ok (.ptSt 31 7) ∧ decode 0x001C03EB = .ok (.ptLd 31 7) ∧
    decode 0x0000FFEC = .ok (.jmp 2047) := by decide
theorem test_decode_unknown_20 : decode 0x00000014 = .error (.unknownOpcode 0x00000014) := by decide
theorem test_decode_unknown_first : decode 0xFFFFFFFF = .error (.unknownOpcode 0xFFFFFFFF) := by decide
theorem test_decode_reserved_nop : decode 0x00000020 = .error (.reservedBitsSet 0x00000020) := by decide
theorem test_decode_reserved_add : decode 0x80000001 = .error (.reservedBitsSet 0x80000001) := by decide
theorem test_decode_reserved_ptLd : decode 0x0000800B = .error (.reservedBitsSet 0x0000800B) := by decide
theorem test_decode_reserved_ptSt : decode 0x0004000A = .error (.reservedBitsSet 0x0004000A) := by decide
theorem test_decode_reserved_jmp : decode 0x0001000C = .error (.reservedBitsSet 0x0001000C) := by decide
theorem test_decodeTableWord : decodeTableWord 32 0x00018821 = some (.add 1 2 3) := by decide
theorem test_encodeLine : encodeLine (.add 1 2 3) = "00000000000000011000100000100001".toList := by decide
theorem test_lineWord : lineWord "00000000000000011000100000100001".toList = 0x00018821 := by decide

/-! One step of each instruction on a small state. -/

/-- A state around a program: flags Z, noise value 0x1234, next draw 5. -/
def start (prog : List InstrWord) : State := State.fresh .z 0x1234 5 prog [] 0

/-- A state with R1 and R2 set. -/
def regs (a b : Word) : State := ((start []).writeReg 1 a).writeReg 2 b

/-- A view of the state an instruction leaves, if it leaves one. -/
def view {α : Type} (i : Instr) (s : State) (f : State → α) : Option α :=
  match exec i s with
  | .next t => some (f t)
  | .fault _ => none
  | .refused _ => none

/-- Register 3, the flags and PC. -/
def aluView (t : State) : Word × Flags × Word := (t.readReg 3, t.flags, t.pc)

-- section 6
theorem test_add_wraps : view (.add 3 1 2) (regs 0xFFFF 1) aluView = some (0, Flags.ofClass .z, 1) := by decide
theorem test_add_negative :
    view (.add 3 1 2) (regs 0x7FFF 1) aluView = some (0x8000, Flags.ofClass .n, 1) := by decide
theorem test_sub : view (.sub 3 1 2) (regs 3 5) aluView = some (0xFFFE, Flags.ofClass .n, 1) := by decide
theorem test_sub_compare :
    view (.sub 0 1 2) (regs 10 3) (fun t => (t.readReg 0, t.flags)) = some (0, Flags.ofClass .p) := by decide
theorem test_xor : view (.xor 3 1 2) (regs 0x00FF 0xFFFF) aluView = some (0xFF00, Flags.ofClass .n, 1) := by decide
theorem test_or : view (.or 3 1 2) (regs 0x0F00 0x00F0) aluView = some (0x0FF0, Flags.ofClass .p, 1) := by decide
theorem test_and : view (.and 3 1 2) (regs 0xFFFF 0x7FFF) aluView = some (0x7FFF, Flags.ofClass .p, 1) := by decide
theorem test_rsh : view (.rsh 3 1) (regs 0x8001 0) aluView = some (0x4000, Flags.ofClass .p, 1) := by decide
theorem test_adi_decrements :
    view (.adi 3 1 65535) (regs 5 0) aluView = some (4, Flags.ofClass .p, 1) := by decide
theorem test_adi_r0 :
    view (.adi 0 0 5) (start []) (fun t => (t.readReg 0, t.flags)) = some (0, Flags.ofClass .p) := by decide

-- spec/42_load_store.md R210, R211 (the examples), R72
theorem test_st : view (.st 2 1 10) (regs 5 0x1234) (fun t => (t.dmem, t.pc)) = some ([(15, 0x1234)], 1) := by decide
theorem test_st_d0_and_fault :
    view (.st 1 0 0) (regs 9 0) (fun t => t.dmem) = some [] ∧
      exec (.st 2 1 255) (regs 0xFFFF 0) = .fault (.dataAddressFault 65790) := ⟨by decide, rfl⟩
theorem test_ld :
    view (.ld 1 1 10) ((regs 5 0).writeCell 15 0x1234) (fun t => (t.readReg 1, t.flags)) =
      some (0x1234, Flags.ofClass .z) := by decide
theorem test_ld_faults : exec (.ld 3 1 1) (regs 255 0) = .fault (.dataAddressFault 256) := by rfl

-- spec/43_ports.md R230 to R243, section 1 rows S12, S15 to S17
theorem test_ptSt_marquee_and_number :
    view (.ptSt 1 1) { regs 0xFFE5 0 with mqCursor := 10 } (fun t => (t.mqStage[10], t.mqCursor)) = some (5, 0) ∧
      view (.ptSt 1 0) ((regs 0x8000 0).appendMarquee 8) (fun t => (t.mqShown[0], t.mqStage[0], t.mqCursor)) =
        some (8, 8, 1) ∧
      view (.ptSt 1 2) (regs 0x03FF 0) (fun t => (t.numShown, t.numDebug, t.readWP 2)) =
        some (.shown (-1), 0x03FF, 0x03FF) := by decide
theorem test_ptSt_draw :
    view (.ptSt 0 4) { start [] with penX := 5, penY := 5, pixLatch := true }
        (fun t => (t.pixBack.pixel 26 26, t.pixBack.pixel 26 25, t.report)) = some (true, false, .completed) ∧
      view (.ptSt 1 4) { regs 7 0 with penY := 5, pixLatch := true } (fun t => (t.readWP 4, t.pc, t.report)) =
        some (7, 1, .screenError 0 5) := by decide
theorem test_ptLd_controller :
    view (.ptLd 6 0) ((start []).setButtons ⟨true, false, false, false, false, true, false, false⟩)
      (fun t => (t.readReg 6, t.buttons)) =
      some (0x0021, ⟨true, false, false, false, false, false, false, false⟩) := by decide
theorem test_ptLd_noise_and_unused :
    view (.ptLd 6 1) (start []) (fun t => t.readReg 6) = some 0x1234 ∧
      view (.ptLd 1 7) (regs 3 0) (fun t => t.readReg 1) = some 0 := by decide

-- spec/44_control.md R260 to R266 (the examples)
theorem test_jmp : view (.jmp 2047) { start [] with pc := 3 } (fun t => t.pc) = some 2047 := by decide
theorem test_cal : view (.cal 10) { start [] with pc := 2 } (fun t => (t.pc, t.cs)) = some (10, [3]) := by decide
theorem test_cal_drops_oldest :
    view (.cal 10) { start [] with pc := 20, cs := (List.range 16).map (BitVec.ofNat 16) } (fun t => t.cs) =
      some (((List.range 15).map (fun k => BitVec.ofNat 16 (k + 1))) ++ [21]) := by decide
theorem test_ret : view .ret { start [] with pc := 10, cs := [7, 3] } (fun t => (t.pc, t.cs)) = some (3, [7]) := by
  decide
theorem test_ret_underflow : exec .ret { start [] with pc := 4 } = .fault (.callStackUnderflow 4) := by rfl
theorem test_beq_taken : view (.beq 7) (start []) (fun t => t.pc) = some 7 := by decide
theorem test_bne_not_taken : view (.bne 7) (start []) (fun t => t.pc) = some 1 := by decide
theorem test_blt_taken : view (.blt 9) ((start []).setFlags (Flags.ofClass .n)) (fun t => t.pc) = some 9 := by decide
theorem test_bgt_taken : view (.bgt 0) ((start []).setFlags (Flags.ofClass .p)) (fun t => t.pc) = some 0 := by decide

-- spec/40_cycle_system.md R180, R181 (the examples), R171; section 1 rows S11, S13
theorem test_nop : view .nop { start [] with pc := 4 } (fun t => (t.pc, t.drawCount)) = some (5, 6) := by decide
theorem test_hlt : view .hlt (start []) (fun t => (t.pc, t.runState, t.report)) = some (0, .halted, .halted) := by decide
theorem test_overrun : step (start []) = .fault (.overrun 0) := by rfl
theorem test_pc_wraps : view .nop { start [] with pc := 65535 } (fun t => t.pc) = some 0 := by decide
theorem test_withFetchWord :
    (fetch (State.reset.withFetchWord 32 0x00018821)).map decode = some (.ok (.add 1 2 3)) := by decide

/-! Memory: the canonical form (log 1). -/

theorem test_memory_write_zero_unlists : Memory.write [(3, 7), (9, 1)] 3 0 = [(9, 1)] := by decide
theorem test_memory_write_keeps_order : Memory.write [(3, 7), (9, 1)] 5 2 = [(3, 7), (5, 2), (9, 1)] := by decide
theorem test_memory_not_wf : Memory.wf [(9, 1), (3, 7)] = false ∧ Memory.wf [(3, 0)] = false := by decide

/-! Text (sections 4 and 5). -/

/-- Source lines. -/
def src (ls : List String) : List Line := ls.map String.toList

theorem test_text_lower_case : decodeLine "add R1 R2 R3".toList = .ok (.add 1 2 3) := by decide
theorem test_text_leading_zeros : decodeLine "JMP 007".toList = .ok (.jmp 7) := by decide
theorem test_text_comma :
    decodeLine "ADD R1, R2, R3".toList = .error (.operandType "ADD R1, R2, R3".toList "R1,".toList) := by decide
theorem test_text_range :
    decodeLine "JMP 2048".toList = .error (.operandRange "JMP 2048".toList "2048".toList) := by decide
theorem test_text_unknown : decodeLine "MUL R1 R2 R3".toList = .error (.unknownOpcode "MUL R1 R2 R3".toList) := by
  decide
theorem test_pre_define : preprocess (src ["ADI R1 R0 Y", "define Y 3"]) = .ok (src ["ADI R1 R0 3"]) := by decide
theorem test_pre_single_pass :
    preprocess (src ["define A B", "define B 7", "ADI R1 R0 A"]) = .ok (src ["ADI R1 R0 B"]) := by decide
theorem test_pre_labels :
    preprocess (src [".start", "NOP", ".loop JMP .loop", "JMP .start"]) = .ok (src ["NOP", "JMP 1", "JMP 0"]) := by
  decide
theorem test_pre_trailing_label : preprocess (src ["JMP .end", ".end"]) = .ok (src ["JMP 1"]) := by decide
theorem test_pre_duplicate_label :
    preprocess (src [".a NOP", ".a NOP"]) = .error (.duplicateLabel ".a NOP".toList) := by decide
theorem test_pre_unresolved :
    preprocess (src ["JMP .nowhere"]) = .error (.unresolvedLabel "JMP .nowhere".toList ".nowhere".toList) := by decide
theorem test_pre_literal : preprocess (src ["ADI R1 R0 \"z\""]) = .ok (src ["ADI R1 R0 26"]) := by decide
theorem test_pre_literal_space : preprocess (src ["ADI R1 R0 \" \""]) = .ok (src ["ADI R1 R0 0"]) := by decide
theorem test_pre_literal_digit :
    preprocess (src ["ADI R1 R0 \"5\""]) =
      .error (.characterLiteral "ADI R1 R0 \"5\"".toList "\"5\"".toList) := by decide
theorem test_pre_comment : preprocess (src ["NOP # comment", "# only", "", "  ", "HLT"]) = .ok (src ["NOP", "HLT"]) := by
  decide
theorem test_assemble : assemble (src ["define X 5", "ADI R1 R0 X"]) = .ok [0x00028027] := by decide

/-! The host's side. -/

theorem test_reset_keeps_program :
    ((hostReset (regs 3 4).haltRun).imem, (hostReset (regs 3 4).haltRun).runState) = ([], .idle) := by decide
theorem test_step_halts : (hostStep (start [0x13])).1.runState = .halted := by decide
theorem test_load_then_step :
    ((hostStep (hostLoad State.reset [encodeLine .nop]).1).1.pc, (hostLoad State.reset [zeros.tail]).2) =
      (1, .shapeError (.badLine zeros.tail)) := by decide

-- spec/00_scope.md R14 and spec/60_exceptions.md R308, R309
theorem test_snapshot_ports :
    let s := (start []).setButtons ⟨true, false, false, false, false, true, false, false⟩
    (s.snapshot.readPorts[0], s.snapshot.readPorts[1], s.snapshot.readPorts[7], (command .snapshot s).1.buttons) =
      (0x0021, 0x1234, 0, s.buttons) := by decide
theorem test_duties :
    dutifulSchedule false [.command .step] (start []) = false ∧
      dutifulSchedule false [.command (.load [zeros]), .command .step] (start []) = true ∧
      dutifulSchedule false [.command (.load [zeros.tail]), .command .step] (start []) = false ∧
      dutifulSchedule true [.command (.run 1), .command (.load [zeros])] (start []) = false := by decide
-- the choices of logs 27 and 29
theorem test_leftmost_token_reported :
    preprocess (src ["ADD .a .b"]) = .error (.unresolvedLabel "ADD .a .b".toList ".a".toList) := by decide
theorem test_run_during_run :
    let s := ((start []).setRunState .running).setStop true
    ((command (.run 7) s).1.runState, (command (.run 7) s).1.stopRequested, (command (.run 7) s).1.speed) =
      (.running, false, 7) := by decide

/-! Witnesses: for each statement with hypotheses, values that meet them; where it has several clauses, one for each,
at the ends of its range. -/

theorem witness_EncodeDecodeRoundTrip : decode 0x7FFFFFE7 = .ok (.adi 31 31 65535) := by decide
theorem witness_DecodeRefusesByName_defined :
    (0x00000013 : InstrWord).toNat % 32 < 20 ∧ (0x80000013 : InstrWord).toNat % 32 < 20 ∧
      2 ^ 31 ≤ (0x80000013 : InstrWord).toNat := by decide
theorem witness_StepRunsDecoded :
    (start [0x13]).imem[(start [0x13]).pc.toNat]? = some 0x13 ∧ decode 0x13 = .ok .hlt := by decide
theorem witness_StepStops_overrun : (start []).imem.length ≤ (start []).pc.toNat := by decide
theorem witness_StepStops_unknown :
    (start [0x14]).imem[(start [0x14]).pc.toNat]? = some 0x14 ∧ decode 0x14 = .error (.unknownOpcode 0x14) := by decide
theorem witness_StepStops_reserved :
    (start [0x20]).imem[(start [0x20]).pc.toNat]? = some 0x20 ∧ decode 0x20 = .error (.reservedBitsSet 0x20) := by
  decide
/-- For EveryStepForcesZerosAndCutsTheStack, EveryStepRerollsReadPort1 and ProgramIsReadOnly. -/
theorem witness_step_next :
    step (start [0x13]) = .next ((start [0x13]).haltRun.complete .stay .halted) ∧
      step (start [0]) = .next ((start [0]).complete .next .completed) := ⟨rfl, rfl⟩
/-- For OnlyAluInstructionsWriteFlags, with the next one. -/
theorem witness_exec_alu : ∃ t, exec (.add 3 1 2) (start []) = .next t ∧ isAlu (.add 3 1 2) = true := ⟨_, rfl, rfl⟩
theorem witness_exec_not_alu : ∃ t, exec (.jmp 3) (start []) = .next t ∧ isAlu (.jmp 3) = false := ⟨_, rfl, rfl⟩
theorem witness_Pixels_back :
    ∃ s t, exec (.ptSt 0 6) s = .next t ∧ t.pixBack ≠ s.pixBack := by
  refine ⟨{ start [] with pixLatch := true }, _, rfl, fun h => ?_⟩
  exact absurd (congrArg (fun p => Screen.pixel p 0 0) h) (by decide)
theorem witness_Pixels_front :
    ∃ s t, exec (.ptSt 0 7) s = .next t ∧ t.pixFront ≠ s.pixFront := by
  refine ⟨{ start [] with pixBack := Screen.fill true }, _, rfl, fun h => ?_⟩
  exact absurd (congrArg (fun p => Screen.pixel p 0 0) h) (by decide)
theorem witness_OutputDevices :
    SameView (start []) { start [] with penX := 3, pixLatch := true } ∧
      (start []).penX ≠ { start [] with penX := 3, pixLatch := true }.penX :=
  ⟨⟨rfl, rfl, rfl, rfl, rfl, rfl, rfl, rfl⟩, by decide⟩
theorem witness_AdiResult_range : 31 < 32 ∧ 0 < 32 ∧ 65536 ≤ 65536 := by decide
theorem witness_StoreResult :
    effectiveAddress ((regs 0 0).readReg 1) 0 ≤ 255 ∧ effectiveAddress ((regs 200 0).readReg 1) 55 = 255 := by decide
theorem witness_LoadResult :
    effectiveAddress ((regs 0 0).readReg 1) 0 ≤ 255 ∧ effectiveAddress ((regs 255 0).readReg 1) 0 = 255 := by decide
theorem witness_LoadSeesLastStore :
    (regs 200 0).readReg 0 = 0 ∧ ((regs 200 0).readReg 1).toNat + (55 : Offset).toNat ≤ 255 ∧ (3 : RegIx) ≠ 0 := by
  decide
theorem witness_OnlyThree_store_faults : 255 < ((regs 200 0).readReg 1).toNat + (56 : Offset).toNat := by decide
theorem witness_MarqueeControl :
    (bitOf 0x8000 15, bitOf 0x8000 14) = (true, false) ∧ (bitOf 0x7FFF 15, bitOf 0x7FFF 14) = (false, true) ∧
      (bitOf 0x3FFF 15, bitOf 0x3FFF 14) = (false, false) := by decide
theorem witness_MarqueeBothBits :
    bitOf ((regs 0xC000 0).readReg 1) 15 = true ∧ bitOf ((regs 0xC000 0).readReg 1) 14 = true := by decide
theorem witness_MarqueeBothBits_order (s : State) :
    Config.marqueeOrderDraw s.drawCount = .commitFirst ∨ Config.marqueeOrderDraw s.drawCount = .clearFirst := by
  cases Config.marqueeOrderDraw s.drawCount <;> simp
theorem witness_PenResult_layout : Config.xyLayout = .xHigh ∨ Config.xyLayout = .xLow := by
  cases Config.xyLayout <;> simp
theorem witness_DrawResult_ends :
    (1 ≤ { start [] with penX := 1, penY := 31 }.penX.toNat ∧ 1 ≤ { start [] with penX := 1, penY := 31 }.penY.toNat) ∧
      view (.ptSt 0 4) { start [] with penX := 1, penY := 31, pixLatch := true } (fun t => t.pixBack.pixel 0 30) =
        some true := by decide
theorem witness_DrawOutOfRange_x : { start [] with penY := 31 }.penX.toNat = 0 := by decide
theorem witness_DrawOutOfRange_y : { start [] with penX := 31 }.penY.toNat = 0 := by decide
theorem witness_NoiseAndUnused_ends : 2 ≤ (2 : PortIx).toNat ∧ 2 ≤ (7 : PortIx).toNat := by decide
theorem witness_JumpResult :
    (start [0x13]).imem.length ≤ (1 : Addr).toNat ∧ (start [0x13]).pc.toNat = (0 : Addr).toNat := by decide
theorem witness_ReturnResult :
    { start [] with cs := [7, 3] }.cs = [7] ++ [3] ∧ (start []).cs = [] := by decide
theorem witness_BranchResult :
    (start []).flags.beq = true ∧ (start []).flags.bne = false ∧
      ((start []).setFlags (Flags.ofClass .n)).flags.blt = true ∧
      ((start []).setFlags (Flags.ofClass .p)).flags.bgt = true := by decide
theorem witness_CallsKeep : { start [] with cs := List.replicate 16 (9 : Word) }.cs.length ≤ 16 := by decide
theorem witness_CompareIdiom_ends :
    ((regs 0x7FFF 0).readReg 1).toInt - ((regs 0x7FFF 0).readReg 2).toInt = 32767 ∧
      ((regs 0x8000 0).readReg 1).toInt - ((regs 0x8000 0).readReg 2).toInt = -32768 := by decide
theorem witness_HaltRepeats : (start [0x13]).imem[(start [0x13]).pc.toNat]? = some (encode .hlt) := by decide
theorem witness_OnlyHaltHalts_changes :
    ∃ t, step (start [0x13]) = .next t ∧ t.runState ≠ (start [0x13]).runState := ⟨_, rfl, by decide⟩
theorem witness_OnlyDroppedPixels :
    (start [0xA + 4 * 2 ^ 15]).imem[0]? = some (encode (.ptSt 0 4)) ∧ (start []).penX.toNat = 0 := by decide
theorem witness_RunsEndAtHlt : (runToHalt 2 (start [0, 0x13])).isSome = true := by decide

/-- The small state has the invariant: for EveryHostScheduleKeepsInvariant and StepKeepsInvariant. -/
theorem witness_invariant : (start [0, 0x13]).Inv :=
  ⟨by decide, by decide, by decide, by decide, by decide, by decide, by decide⟩
theorem witness_StepKeepsInvariant :
    (start [0, 0x13]).Inv ∧ ∃ t, step (start [0, 0x13]) = .next t := ⟨witness_invariant, _, rfl⟩
theorem witness_ErrorsLeave :
    stepOutcome (start []) = .overrun 0 ∧ stepOutcome (start [0x14]) = .fault (.unknownOpcode 0x14) := ⟨rfl, rfl⟩
/-- A state outside a run, for the clauses on a host step. -/
theorem witness_RunLoop_step :
    (start [0]).runState ≠ .running ∧ (∃ t, stepOutcome (start [0]) = .completed t) ∧
      (∃ t, stepOutcome (start [0x13]) = .halted t) ∧ (∃ t, stepOutcome (start [0x2000A]) = .screenError t 0 0) :=
  ⟨by decide, ⟨_, rfl⟩, ⟨_, rfl⟩, ⟨_, rfl⟩⟩
theorem witness_RunLoop_stop :
    ((start []).setRunState .running).runState = .running ∧
      (((start []).setRunState .running).setStop true).stopRequested = true := by decide
theorem witness_RunLoop_outcomes :
    (∃ t, stepOutcome ((start [0x13]).setRunState .running) = .halted t) ∧
      (∃ t, stepOutcome ((start [0x2000A]).setRunState .running) = .screenError t 0 0) ∧
      stepOutcome ((start []).setRunState .running) = .overrun 0 ∧
      stepOutcome ((start [0x0E]).setRunState .running) = .fault (.callStackUnderflow 0) ∧
      (∃ t, stepOutcome ((start [0]).setRunState .running) = .completed t) :=
  ⟨⟨_, rfl⟩, ⟨_, rfl⟩, rfl, rfl, ⟨_, rfl⟩⟩
theorem witness_TextAndBinary :
    encodeLines (src ["NOP", "HLT"]) = .ok [0, 0x13] ∧ (start [0, 0x13]).imem = [0, 0x13] := by decide
theorem witness_EncoderFails :
    encodeLines (src ["NOP", "JMP 2048", "BAD"]) = .error (.encoding "JMP 2048".toList) := by decide
theorem witness_BinaryProgram_longest : (List.replicate 2048 (0 : InstrWord)).length ≤ 2048 := by
  rw [List.length_replicate]
theorem witness_BinaryProgram_load : loadImage [zeros] = .ok [0] := by decide
theorem witness_LabelsPoint :
    extractLabels 0 [] (src ["NOP", ".b", ".c JMP .end", ".end"]) =
        .ok [(".b".toList, 1), (".c".toList, 1), (".end".toList, 2)] ∧
      resolveLabels [(".b".toList, 1), (".c".toList, 1), (".end".toList, 2)]
        (src ["NOP", ".b", ".c JMP .end", ".end"]) = .ok (src ["NOP", "JMP 2"]) := by decide
/-- The clauses' own premises: a label-only line, a labelled instruction and a plain one. -/
theorem witness_LabelsPoint_lines :
    (tokenize ".end".toList, startsWithDot ".end".toList, instructionLine ".end".toList) =
        ([".end".toList], true, false) ∧
      (instructionLine ".c JMP .end".toList, instructionLine "NOP".toList) = (true, true) := by decide

end Sys2Proof.Tests
end

section
/-! SUPPORT. What an executed instruction does before its completion, said once; what the completion needs for the
invariant; and how each shared operation treats the numeric display, the screen and the flags. -/

namespace Sys2Proof.Machine

/-- The state an executed instruction hands to the completion of spec/40_cycle_system.md R175: `OwnEffect s i s1` says
that `s1` can be what `i` makes of `s`. -/
inductive OwnEffect (s : State) : Instr → State → Prop
  | alu {i : Instr} (rd : RegIx) (r : Word) (hi : isAlu i = true) :
      OwnEffect s i ((s.writeReg rd r).setFlags (deriveFlags r))
  | store (rv rb : RegIx) (off : Offset) {a : Nat} (v : Word) (ha : a < Config.dataCells) :
      OwnEffect s (.st rv rb off) (s.writeCell a v)
  | load (rd rb : RegIx) (off : Offset) (v : Word) : OwnEffect s (.ld rd rb off) (s.writeReg rd v)
  | portStore (rv : RegIx) (n : PortIx) (v : Word) : OwnEffect s (.ptSt rv n) (portWrite n v s).1
  | portLoad (rd : RegIx) (n : PortIx) (v : Word) : OwnEffect s (.ptLd rd n) ((portRead n s).2.writeReg rd v)
  | call (addr : Addr) (v : Word) : OwnEffect s (.cal addr) (s.push v)
  | ret : OwnEffect s .ret s.dropTop
  | halt : OwnEffect s .hlt s.haltRun
  | pcOnly {i : Instr} (hi : isAlu i = false) : OwnEffect s i s

/-- Every next state of an instruction is the completion of a state its own effect gives. -/
theorem exec_ownEffect {i : Instr} {s t : State} (h : exec i s = .next t) :
    ∃ s1 a r, t = s1.complete a r ∧ OwnEffect s i s1 := by
  cases i with
  | add | sub | xor | or | and | rsh | adi =>
    exact ⟨_, _, _, ((finish_eq_next _ _ _ _).1 h).symm, .alu _ _ rfl⟩
  | st rv rb off =>
    simp only [exec, execSt_eq] at h
    split at h
    next ha => exact ⟨_, _, _, ((finish_eq_next _ _ _ _).1 h).symm, .store _ _ _ _ ha⟩
    next => cases h
  | ld rd rb off =>
    simp only [exec, execLd_eq] at h
    split at h
    next => exact ⟨_, _, _, ((finish_eq_next _ _ _ _).1 h).symm, .load _ _ _ _⟩
    next => cases h
  | ptSt rv n => exact ⟨_, _, _, ((finish_eq_next _ _ _ _).1 h).symm, .portStore _ _ _⟩
  | ptLd rd n => exact ⟨_, _, _, ((finish_eq_next _ _ _ _).1 h).symm, .portLoad _ _ _⟩
  | cal addr => exact ⟨_, _, _, ((finish_eq_next _ _ _ _).1 h).symm, .call _ _⟩
  | ret =>
    simp only [exec, execRet] at h
    split at h
    next => cases h
    next => exact ⟨_, _, _, ((finish_eq_next _ _ _ _).1 h).symm, .ret⟩
  | hlt => exact ⟨_, _, _, ((finish_eq_next _ _ _ _).1 h).symm, .halt⟩
  | nop | jmp | beq | bne | blt | bgt =>
    exact ⟨_, _, _, ((finish_eq_next _ _ _ _).1 h).symm, .pcOnly rfl⟩

/-- Reading a port changes nothing, or consumes the momentary buttons. -/
theorem portRead_state (n : PortIx) (s : State) : (portRead n s).2 = s ∨ (portRead n s).2 = s.consumeButtons := by
  rcases portRead_cases n s with ⟨_, e⟩ | ⟨_, e⟩ | ⟨_, _, e⟩ <;> simp [e]

/-- The number of a port-2 write: 0 to 255 unsigned, -128 to 127 in sign mode (spec/43_ports.md R233, R234). -/
theorem magnitudeOf_range (v : Word) : -128 ≤ magnitudeOf v ∧ magnitudeOf v ≤ 255 := by
  have hmag : (v.extractLsb' 0 8).toNat < 256 := (v.extractLsb' 0 8).isLt
  simp only [magnitudeOf, Bool.and_eq_true, decide_eq_true_eq]
  split <;> omega

/-- What a port-2 write shows is blank or a number in range. -/
theorem numShownOf_inRange (v : Word) : (numShownOf v).inRange = true := by
  unfold numShownOf
  split
  next => simp [NumShown.inRange, magnitudeOf_range]
  next => rfl

/-- A port write keeps the numeric display in range. -/
theorem portWrite_inRange (n : PortIx) (v : Word) {s : State} (h : s.numShown.inRange = true) :
    (portWrite n v s).1.numShown.inRange = true := by
  apply portAction_induction (P := fun p => p.1.numShown.inRange = true)
  case number => exact numShownOf_inRange v
  case control =>
    rcases writeMarqueeControl_cases v (s.writeWP n v) with e | e | e | e | e <;> rw [e] <;> exact h
  case draw =>
    rcases writeDraw_cases (s.writeWP n v) with ⟨_, e⟩ | ⟨_, e⟩ <;> rw [e] <;> exact h
  all_goals exact h

/-- Marquee control leaves the screen alone (spec/43_ports.md R230, R231). -/
theorem writeMarqueeControl_sameScreen (v : Word) (s : State) : SameScreen s (writeMarqueeControl v s) := by
  rcases writeMarqueeControl_cases v s with e | e | e | e | e <;> rw [e] <;> constructor <;> rfl

/-- Drawing a pixel, or dropping it, leaves the front buffer alone (spec/43_ports.md R236). -/
theorem writeDraw_pixFront (s : State) : (writeDraw s).1.pixFront = s.pixFront := by
  rcases writeDraw_cases s with ⟨_, e⟩ | ⟨_, e⟩ <;> simp [e]

/-- Only ports 4 and 6 change the back buffer, and only port 7 the front one (spec/43_ports.md R236, R238, R239). -/
theorem portWrite_buffers (n : PortIx) (v : Word) (s : State) :
    (n = 4#3 ∨ n = 6#3 ∨ (portWrite n v s).1.pixBack = s.pixBack) ∧
      (n = 7#3 ∨ (portWrite n v s).1.pixFront = s.pixFront) := by
  have hc := writeMarqueeControl_sameScreen v (s.writeWP n v)
  rcases portAction_cases n v (s.writeWP n v) with
    ⟨rfl, e⟩ | ⟨rfl, e⟩ | ⟨rfl, e⟩ | ⟨rfl, e⟩ | ⟨rfl, e⟩ | ⟨rfl, e⟩ | ⟨rfl, e⟩ | ⟨rfl, e⟩ <;>
    simp [portWrite, e, hc.pixBack, hc.pixFront, writeDraw_pixFront]

end Sys2Proof.Machine
end

section
/-! SUPPORT. The invariant of spec/10_state.md R53: the completion, every step, the reset and every event of the host
keep it. -/

namespace Sys2Proof.Machine

/-- The parts of the invariant that the completion does not establish by itself. -/
structure State.InvBeforeCompletion (s : State) : Prop where
  flags : s.flags.legal = true
  memory : Memory.wf s.dmem = true
  number : s.numShown.inRange = true
  program : s.imem.length ≤ Config.imemMax

/-- The completion gives R0, D0 and the call stack their parts of the invariant, whatever stood there before. -/
theorem State.complete_inv {s : State} (hs : s.InvBeforeCompletion) (a : PcAction) (r : Report) :
    (s.complete a r).Inv where
  r0 := by simp
  d0 := by simp
  stack := by simpa using last16_length_le s.cs
  flags := hs.flags
  memory := State.complete_wf hs.memory a r
  number := hs.number
  program := hs.program

/-- What an instruction hands to the completion has the rest of the invariant. -/
theorem OwnEffect.invBeforeCompletion {i : Instr} {s s1 : State} (effect : OwnEffect s i s1) (hs : s.Inv) :
    s1.InvBeforeCompletion := by
  obtain ⟨-, -, -, hf, hm, hn, hp⟩ := hs
  cases effect with
  | alu rd v => exact ⟨deriveFlags_legal v, hm, hn, hp⟩
  | store rv rb off v ha => exact ⟨hf, Memory.write_wf hm ha, hn, hp⟩
  | portStore rv n v =>
    have d := portWrite_devicesOnly n v s
    exact ⟨d.flags ▸ hf, d.dmem ▸ hm, portWrite_inRange n v hn, d.imem ▸ hp⟩
  | portLoad rd n v => rcases portRead_state n s with e | e <;> rw [e] <;> exact ⟨hf, hm, hn, hp⟩
  | load | call | ret | halt | pcOnly => exact ⟨hf, hm, hn, hp⟩

/-- Every instruction keeps the invariant. -/
theorem exec_keeps_inv {i : Instr} {s t : State} (hs : s.Inv) (h : exec i s = .next t) : t.Inv := by
  obtain ⟨s1, a, r, rfl, effect⟩ := exec_ownEffect h
  exact State.complete_inv (effect.invBeforeCompletion hs) a r

/-- Every step that completes keeps the invariant. -/
theorem step_keeps_inv {s t : State} (hs : s.Inv) (h : step s = .next t) : t.Inv := by
  obtain ⟨_, _, _, _, hexec⟩ := step_next h
  exact exec_keeps_inv hs hexec

/-- Settles O49: a step that completes ran one instruction, and every instruction keeps the invariant. -/
theorem stepKeepsInvariant : Obligations.StepKeepsInvariant := fun _ _ => step_keeps_inv

/-- Every register of a fresh state reads 0. -/
@[simp] theorem State.fresh_readReg (c : FlagClass) (v : Word) (n : Nat) (p : List InstrWord) (l : List Line) (k : Nat)
    (i : RegIx) : (State.fresh c v n p l k).readReg i = 0#16 :=
  Vector.getElem_replicate _

/-- A fresh state has the invariant if its program fits the instruction memory. -/
theorem State.fresh_inv (c : FlagClass) (v : Word) (n : Nat) {p : List InstrWord} (hp : p.length ≤ Config.imemMax)
    (l : List Line) (k : Nat) : (State.fresh c v n p l k).Inv where
  r0 := State.fresh_readReg c v n p l k 0#5
  d0 := rfl
  stack := Nat.zero_le _
  flags := Flags.ofClass_legal c
  memory := Memory.wf_nil
  number := rfl
  program := hp

/-- Settles O50: the reset state is a fresh state around the empty program. -/
theorem resetHasInvariant : Obligations.ResetHasInvariant := State.fresh_inv _ _ _ (Nat.zero_le _) _ _

/-- The host's reset keeps the invariant. -/
theorem hostReset_inv {s : State} (hs : s.Inv) : (hostReset s).Inv := State.fresh_inv _ _ _ hs.program _ _

/-- The scheduler's run state, stop flag and speed, and the controller, are outside the invariant. -/
theorem State.setRunState_inv {s : State} (hs : s.Inv) (r : RunState) : (s.setRunState r).Inv := { hs with }

theorem State.setStop_inv {s : State} (hs : s.Inv) (b : Bool) : (s.setStop b).Inv := { hs with }

theorem State.setSpeed_inv {s : State} (hs : s.Inv) (n : Nat) : (s.setSpeed n).Inv := { hs with }

theorem State.setButtons_inv {s : State} (hs : s.Inv) (b : Buttons) : (s.setButtons b).Inv := { hs with }

/-- A program of at most 2048 words keeps the invariant. -/
theorem State.setProgram_inv {s : State} (hs : s.Inv) {p : List InstrWord} (hp : p.length ≤ Config.imemMax)
    (l : List Line) : (s.setProgram p l).Inv :=
  { hs with program := hp }

/-- The loader takes at most 2048 words (spec/30_encoding.md R114). -/
theorem loadImage_length_le {ls : List Line} {ws : List InstrWord} (h : loadImage ls = .ok ws) :
    ws.length ≤ Config.imemMax := by
  unfold loadImage at h
  split at h
  next => cases h
  next =>
    split at h
    next hlen => cases h; simpa using hlen
    next => cases h

/-- What a load of an image does: it sets a program that fits, or leaves the state as it was. -/
theorem hostLoad_state (s : State) (ls : List Line) :
    (hostLoad s ls).1 = s ∨ ∃ p l, p.length ≤ Config.imemMax ∧ (hostLoad s ls).1 = s.setProgram p l := by
  unfold hostLoad
  split
  next ws hload => exact .inr ⟨ws, [], loadImage_length_le hload, rfl⟩
  next => exact .inl rfl

/-- What a load of source text does: it sets a program that fits, or leaves the state as it was. -/
theorem hostLoadSource_state (s : State) (ls : List Line) :
    (hostLoadSource s ls).1 = s ∨ ∃ p l, p.length ≤ Config.imemMax ∧ (hostLoadSource s ls).1 = s.setProgram p l := by
  unfold hostLoadSource
  split
  next => exact .inl rfl
  next out _ =>
    split
    next => exact .inl rfl
    next =>
      split
      next ws hload => exact .inr ⟨ws, out, loadImage_length_le hload, rfl⟩
      next => exact .inl rfl

/-- What a host step leaves, up to the run state: the next state of the step, or the state it was taken at. -/
theorem hostStep_state (s : State) :
    (∃ t r, step s = .next t ∧ (hostStep s).1 = t.setRunState r) ∨ (hostStep s).1 = s.setRunState .idle := by
  unfold hostStep stepOutcome
  split
  next t hstep =>
    refine .inl ⟨t, ?_⟩
    unfold outcomeOfNext
    split <;> exact ⟨_, hstep, rfl⟩
  all_goals exact .inr rfl

/-- A host step keeps the invariant, whatever its outcome. -/
theorem hostStep_inv {s : State} (hs : s.Inv) : (hostStep s).1.Inv := by
  rcases hostStep_state s with ⟨t, r, hstep, e⟩ | e <;> rw [e]
  · exact State.setRunState_inv (step_keeps_inv hs hstep) r
  · exact State.setRunState_inv hs .idle

/-- Every command of the host keeps the invariant. -/
theorem command_inv {s : State} (hs : s.Inv) (c : Command) : (command c s).1.Inv := by
  cases c with
  | reset => exact hostReset_inv hs
  | step => exact hostStep_inv hs
  | stop => exact State.setStop_inv hs true
  | run n => exact State.setRunState_inv (State.setStop_inv (State.setSpeed_inv hs n) false) .running
  | setSpeed n => exact State.setSpeed_inv hs n
  | controllerInput b => exact State.setButtons_inv hs b
  | load ls =>
    rcases hostLoad_state s ls with e | ⟨p, l, hp, e⟩ <;> simp only [command, e]
    · exact hs
    · exact State.setProgram_inv hs hp l
  | loadSource ls =>
    rcases hostLoadSource_state s ls with e | ⟨p, l, hp, e⟩ <;> simp only [command, e]
    · exact hs
    · exact State.setProgram_inv hs hp l
  | snapshot => exact hs

/-- Every iteration of the run loop keeps the invariant. -/
theorem tick_inv {s : State} (hs : s.Inv) : (tick s).1.Inv := by
  unfold tick
  split
  next =>
    split
    next => exact State.setRunState_inv hs .idle
    next => exact hostStep_inv hs
  next => exact hs

/-- Every event keeps the invariant. -/
theorem event_inv {s : State} (hs : s.Inv) (e : Event) : (event e s).1.Inv := by
  cases e with
  | command c => exact command_inv hs c
  | tick => exact tick_inv hs

/-- Settles O51, by induction on the events: each command and each iteration of the run loop keeps the invariant. -/
theorem everyHostScheduleKeepsInvariant : Obligations.EveryHostScheduleKeepsInvariant := by
  intro es
  induction es with
  | nil => exact fun _ hs => hs
  | cons e es ih => exact fun s hs => ih (event e s).1 (event_inv hs e)

end Sys2Proof.Machine
end

section
/-! SUPPORT. What every step draws, what it keeps, and which instructions write the flags and the screen. -/

namespace Sys2Proof.Machine

/-- Every completed instruction takes the next draw (spec/10_state.md R41). -/
theorem exec_draws {i : Instr} {s t : State} (h : exec i s = .next t) :
    t.rand = Config.randDraw s.drawCount ∧ t.drawCount = s.drawCount + 1 := by
  obtain ⟨s1, a, r, rfl, hdraw, -, -⟩ := exec_completes i s t h
  simp [hdraw]

/-- Settles O10, for a step by the instruction it ran. -/
theorem everyStepRerollsReadPort1 : Obligations.EveryStepRerollsReadPort1 := by
  refine ⟨fun s t h => ?_, fun _ _ _ h => exec_draws h⟩
  obtain ⟨_, _, _, _, hexec⟩ := step_next h
  exact exec_draws hexec

/-- Settles O12: an instruction hands its program and source to the completion, which keeps them. -/
theorem programIsReadOnly : Obligations.ProgramIsReadOnly := by
  refine ⟨fun s t h => ?_, fun _ => rfl⟩
  obtain ⟨_, i, _, _, hexec⟩ := step_next h
  obtain ⟨s1, a, r, rfl, -, himem, hsource⟩ := exec_completes i s t hexec
  exact ⟨himem, hsource⟩

/-- A flag state is legal exactly when it is that of one of the classes Z, N and P. -/
theorem Flags.legal_iff (f : Flags) : f.legal = true ↔ ∃ c, f = Flags.ofClass c := by
  constructor
  · intro h
    simp only [Flags.legal, Bool.or_eq_true, beq_iff_eq] at h
    obtain (h | h) | h := h <;> exact ⟨_, h⟩
  · rintro ⟨c, rfl⟩
    exact Flags.ofClass_legal c

/-- An ALU-class instruction leaves the flags of some result. -/
theorem exec_flags_of_isAlu {i : Instr} {s t : State} (h : exec i s = .next t) (hi : isAlu i = true) :
    ∃ r, t.flags = deriveFlags r := by
  obtain ⟨s1, a, r, rfl, effect⟩ := exec_ownEffect h
  cases effect with
  | alu rd v => exact ⟨v, rfl⟩
  | pcOnly hn => simp [hi] at hn
  | store | load | portStore | portLoad | call | ret | halt => cases hi

/-- Every other instruction leaves the flags as they were. -/
theorem exec_flags_of_not_isAlu {i : Instr} {s t : State} (h : exec i s = .next t) (hi : isAlu i = false) :
    t.flags = s.flags := by
  obtain ⟨s1, a, r, rfl, effect⟩ := exec_ownEffect h
  cases effect with
  | alu _ _ ha => simp [hi] at ha
  | portStore rv n v => exact (portWrite_devicesOnly n v s).flags
  | portLoad rd n v => rcases portRead_state n s with e | e <;> rw [e] <;> rfl
  | store | load | call | ret | halt | pcOnly => rfl

/-- Settles O11: the flags of a result are those of one of the classes Z, N and P. -/
theorem onlyAluInstructionsWriteFlags : Obligations.OnlyAluInstructionsWriteFlags := by
  refine fun i s t h => ⟨exec_flags_of_not_isAlu h, fun hi => ?_⟩
  obtain ⟨r, hr⟩ := exec_flags_of_isAlu h hi
  obtain ⟨c, hc⟩ := (Flags.legal_iff _).1 (deriveFlags_legal r)
  rw [hr, hc]
  cases c <;> decide

/-- An instruction other than a port store leaves both buffers as they were; a port store leaves what its port
leaves. -/
theorem exec_buffers {i : Instr} {s t : State} (h : exec i s = .next t) :
    (∃ rv n v, i = .ptSt rv n ∧ t.pixBack = (portWrite n v s).1.pixBack ∧ t.pixFront = (portWrite n v s).1.pixFront) ∨
      (t.pixBack = s.pixBack ∧ t.pixFront = s.pixFront) := by
  obtain ⟨s1, a, r, rfl, effect⟩ := exec_ownEffect h
  cases effect with
  | portStore rv n v => exact .inl ⟨rv, n, v, rfl, rfl, rfl⟩
  | portLoad rd n v => rcases portRead_state n s with e | e <;> rw [e] <;> exact .inr ⟨rfl, rfl⟩
  | alu | store | load | call | ret | halt | pcOnly => exact .inr ⟨rfl, rfl⟩

/-- Settles O13: only a port store touches a buffer, and each buffer has its own ports. -/
theorem pixelsChangeOnlyThroughTheirPorts : Obligations.PixelsChangeOnlyThroughTheirPorts := by
  intro i s t h
  rcases exec_buffers h with ⟨rv, n, v, rfl, hback, hfront⟩ | ⟨hback, hfront⟩
  · obtain ⟨kback, kfront⟩ := portWrite_buffers n v s
    refine ⟨fun hne => ⟨rv, ?_⟩, fun hne => ⟨rv, ?_⟩, rfl⟩
    · rcases kback with rfl | rfl | k
      · exact .inl rfl
      · exact .inr rfl
      · exact absurd (hback.trans k) hne
    · rcases kfront with rfl | k
      · rfl
      · exact absurd (hfront.trans k) hne
  · exact ⟨fun hne => absurd hback hne, fun hne => absurd hfront hne, rfl⟩

end Sys2Proof.Machine
end

section
/-! SUPPORT. Two states that agree on `SameView` run every instruction alike (spec/10_state.md R55). -/

namespace Sys2Proof.Machine

/-- Two results that a program cannot tell apart: next states with the same view, or the same fault or refusal. -/
inductive SameViewResult : Result → Result → Prop
  | next {t t' : State} (h : SameView t t') : SameViewResult (.next t) (.next t')
  | fault (f : Fault) : SameViewResult (.fault f) (.fault f)
  | refused (r : Refusal) : SameViewResult (.refused r) (.refused r)

/-- One of two such results faults exactly when the other does, with the same fault. -/
theorem SameViewResult.fault_iff {r r' : Result} (h : SameViewResult r r') (f : Fault) :
    r = .fault f ↔ r' = .fault f := by
  cases h with
  | next => simp
  | fault => rfl
  | refused => rfl

/-- Where one of two such results completes, the other does, with the same view. -/
theorem SameViewResult.exists_next {r r' : Result} (h : SameViewResult r r') {t : State} (hr : r = .next t) :
    ∃ t', r' = .next t' ∧ SameView t t' := by
  cases h with
  | next ht =>
    cases hr
    exact ⟨_, rfl, ht⟩
  | fault => cases hr
  | refused => cases hr

namespace SameView

variable {s s' : State}

theorem readReg (h : SameView s s') (i : RegIx) : s'.readReg i = s.readReg i := by simp [State.readReg, h.x]

theorem readCell (h : SameView s s') (a : Nat) : s'.readCell a = s.readCell a := by simp [State.readCell, h.dmem]

theorem writeReg (h : SameView s s') (i : RegIx) (v : Word) : SameView (s.writeReg i v) (s'.writeReg i v) :=
  { h with x := by simp [h.x] }

theorem setFlags (h : SameView s s') (f : Flags) : SameView (s.setFlags f) (s'.setFlags f) :=
  { h with flags := rfl }

theorem writeCell (h : SameView s s') (a : Nat) (v : Word) : SameView (s.writeCell a v) (s'.writeCell a v) :=
  { h with dmem := by simp [h.dmem] }

theorem push (h : SameView s s') (v : Word) : SameView (s.push v) (s'.push v) :=
  { h with cs := by simp [h.cs] }

theorem dropTop (h : SameView s s') : SameView s.dropTop s'.dropTop :=
  { h with cs := by simp [h.cs] }

theorem haltRun (h : SameView s s') : SameView s.haltRun s'.haltRun := { h with }

theorem consumeButtons (h : SameView s s') : SameView s.consumeButtons s'.consumeButtons :=
  { h with buttons := by simp [h.buttons] }

/-- A port write keeps the view, whatever the output devices held. -/
theorem portWrite (h : SameView s s') (n : PortIx) (v : Word) :
    SameView (portWrite n v s).1 (portWrite n v s').1 := by
  have d := portWrite_devicesOnly n v s
  have d' := portWrite_devicesOnly n v s'
  exact
    { x := by rw [d.x, d'.x, h.x]
      dmem := by rw [d.dmem, d'.dmem, h.dmem]
      pc := by rw [d.pc, d'.pc, h.pc]
      flags := by rw [d.flags, d'.flags, h.flags]
      cs := by rw [d.cs, d'.cs, h.cs]
      rand := by rw [d.rand, d'.rand, h.rand]
      buttons := by rw [d.buttons, d'.buttons, h.buttons]
      drawCount := by rw [d.drawCount, d'.drawCount, h.drawCount] }

/-- A port read gives the same value and keeps the view. -/
theorem portRead (h : SameView s s') (n : PortIx) :
    (portRead n s').1 = (portRead n s).1 ∧ SameView (portRead n s).2 (portRead n s').2 := by
  rcases portRead_cases n s with ⟨rfl, e⟩ | ⟨rfl, e⟩ | ⟨h0, h1, e⟩
  · exact ⟨by rw [e]; exact congrArg packButtons h.buttons, h.consumeButtons⟩
  · exact ⟨h.rand, h⟩
  · have e' : Machine.portRead n s' = (0#16, s') := by
      rcases portRead_cases n s' with ⟨hn, _⟩ | ⟨hn, _⟩ | ⟨_, _, e'⟩
      · exact absurd hn h0
      · exact absurd hn h1
      · exact e'
    rw [e, e']
    exact ⟨rfl, h⟩

/-- The completion keeps the view: equal draw indices give equal draws (logs 2 and 6); the reports may differ. -/
theorem finish (h : SameView s s') (a : PcAction) (r r' : Report) :
    SameViewResult (finish s a r) (finish s' a r') :=
  .next
    { x := by simp [h.x]
      dmem := by simp [h.dmem]
      pc := by simp [h.pc]
      flags := h.flags
      cs := by simp [h.cs]
      rand := by simp [h.drawCount]
      buttons := h.buttons
      drawCount := by simp [h.drawCount] }

theorem aluResult (h : SameView s s') (rd : RegIx) {v v' : Word} (hv : v' = v) :
    SameViewResult (aluResult s rd v) (aluResult s' rd v') := by
  subst hv
  exact ((h.writeReg rd v').setFlags _).finish .next .completed .completed

theorem branchIf (h : SameView s s') {b b' : Bool} (hb : b' = b) (addr : Addr) :
    SameViewResult (branchIf b addr s) (branchIf b' addr s') := by
  subst hb
  exact h.finish _ .completed .completed

/-- Same view, same instruction: the same fault, or next states with the same view. -/
theorem exec (h : SameView s s') (i : Instr) : SameViewResult (exec i s) (exec i s') := by
  cases i with
  | nop => exact h.finish _ _ _
  | add rd a b => exact h.aluResult rd (by rw [h.readReg, h.readReg])
  | sub rd a b => exact h.aluResult rd (by rw [h.readReg, h.readReg])
  | xor rd a b => exact h.aluResult rd (by rw [h.readReg, h.readReg])
  | or rd a b => exact h.aluResult rd (by rw [h.readReg, h.readReg])
  | and rd a b => exact h.aluResult rd (by rw [h.readReg, h.readReg])
  | rsh rd a => exact h.aluResult rd (by rw [h.readReg])
  | adi rd a imm => exact h.aluResult rd (by rw [h.readReg])
  | st rv rb off =>
    simp only [Machine.exec, execSt_eq, h.readReg]
    split
    · exact (h.writeCell _ _).finish _ _ _
    · exact .fault _
  | ld rd rb off =>
    simp only [Machine.exec, execLd_eq, h.readReg, h.readCell]
    split
    · exact (h.writeReg _ _).finish _ _ _
    · exact .fault _
  | ptSt rv n =>
    simp only [Machine.exec, execPtSt, h.readReg]
    exact (h.portWrite n _).finish _ _ _
  | ptLd rd n =>
    obtain ⟨hv, hs⟩ := h.portRead n
    simp only [Machine.exec, execPtLd, hv]
    exact (hs.writeReg rd _).finish _ _ _
  | jmp addr => exact h.finish _ _ _
  | cal addr =>
    simp only [Machine.exec, execCal, h.pc]
    exact (h.push _).finish _ _ _
  | ret =>
    simp only [Machine.exec, execRet, State.top?, h.cs, h.pc]
    split
    · exact .fault _
    · exact h.dropTop.finish _ _ _
  | beq addr => exact h.branchIf (by rw [h.flags]) addr
  | bne addr => exact h.branchIf (by rw [h.flags]) addr
  | blt addr => exact h.branchIf (by rw [h.flags]) addr
  | bgt addr => exact h.branchIf (by rw [h.flags]) addr
  | hlt => exact h.haltRun.finish _ _ _

end SameView

/-- Settles O14: the results on two states with the same view agree. -/
theorem outputDevicesAreNeverReadBack : Obligations.OutputDevicesAreNeverReadBack := by
  intro i s s' h
  exact ⟨(h.exec i).fault_iff, fun _ => (h.exec i).exists_next⟩

end Sys2Proof.Machine
end

section
/-! SUPPORT. A run of CALs and the cut of the call stack (spec/10_state.md R40). -/

namespace Sys2Proof.Machine

/-- Cutting before more is pushed does not change what the last cut leaves. -/
theorem last16_append_last16 (xs ys : List Word) : last16 (last16 xs ++ ys) = last16 (xs ++ ys) := by
  simp only [last16, List.drop_append, List.drop_drop, List.length_append, List.length_drop]
  congr 2 <;> omega

/-- A run of CALs pushes one address each. -/
@[simp] theorem returnAddresses_length (pc : Word) (as : List Addr) : (returnAddresses pc as).length = as.length := by
  induction as generalizing pc with
  | nil => rfl
  | cons a as ih => simp [returnAddresses, ih]

/-- A run of CALs completes, with the old stack and the pushed addresses cut to the last 16. -/
theorem callAll_cs (as : List Addr) (s : State) (hs : s.cs.length ≤ Config.stackDepth) :
    ∃ t, callAll as s = .next t ∧ t.cs = last16 (s.cs ++ returnAddresses s.pc as) := by
  induction as generalizing s with
  | nil => exact ⟨s, rfl, by simp [returnAddresses, last16_of_le hs]⟩
  | cons a as ih =>
    obtain ⟨t, ht, hcs⟩ := ih ((s.push (s.pc + 1#16)).complete (.jump (targetOf a)) .completed)
      (by simpa using last16_length_le _)
    refine ⟨t, ht, ?_⟩
    simpa [last16_append_last16, returnAddresses, PcAction.apply] using hcs

/-- Settles O41, by induction on the CALs: a cut between two of them leaves the same last 16. -/
theorem callsKeepTheMostRecent16 : Obligations.CallsKeepTheMostRecent16 := by
  intro as s hs
  obtain ⟨t, ht, hcs⟩ := callAll_cs as s hs
  exact ⟨t, ht, by simpa [last16, Config.stackDepth] using hcs⟩

end Sys2Proof.Machine
end

section
/-! SUPPORT. The values of the reset table (spec/10_state.md R52). -/

namespace Sys2Proof.Machine

/-- Every pixel of an empty screen is clear, at every position. -/
theorem Screen.pixel_fill_false (row col : Nat) : (Screen.fill false).pixel row col = false := by
  by_cases h : row < 31 ∧ col < 31
  · exact Screen.pixel_fill false row col h.1 h.2
  · exact dif_neg h

/-- Every write-port register of a fresh state holds 0. -/
@[simp] theorem State.fresh_readWP (c : FlagClass) (v : Word) (n : Nat) (p : List InstrWord) (l : List Line) (k : Nat)
    (m : PortIx) : (State.fresh c v n p l k).readWP m = 0#16 :=
  Vector.getElem_replicate _

/-- Every code of a blank marquee is the space. -/
theorem Marquee.blank_getElem (j : Fin 11) : Marquee.blank[j] = 0#5 := by simp [Marquee.blank]

/-- The flags of a class are those of Z, of N or of P. -/
theorem Flags.ofClass_cases (c : FlagClass) :
    Flags.ofClass c = Flags.ofClass .z ∨ Flags.ofClass c = Flags.ofClass .n ∨ Flags.ofClass c = Flags.ofClass .p := by
  cases c <;> simp

/-- Settles O52: the fields that are no array are those of `State.fresh` as they stand. -/
theorem resetValues : Obligations.ResetValues :=
  fun _ => ⟨State.fresh_readReg _ _ _ _ _ _, fun _ => rfl, rfl, rfl, Flags.ofClass_cases _,
    State.fresh_readWP _ _ _ _ _ _,
    fun row col => ⟨Screen.pixel_fill_false row col, Screen.pixel_fill_false row col⟩, rfl, rfl, rfl,
    fun j => ⟨Marquee.blank_getElem j, Marquee.blank_getElem j⟩, rfl, rfl, rfl, rfl, rfl, rfl, rfl, rfl, rfl⟩

end Sys2Proof.Machine
end

section
/-! SUPPORT. A store and the load that follows it (spec/20_memory.md R84). -/

namespace Sys2Proof.Machine

/-- An ST whose address names a cell completes with that cell written (spec/42_load_store.md R210). -/
theorem exec_st_eq_next {s : State} (rv : RegIx) {rb : RegIx} {off : Offset}
    (h : (s.readReg rb).toNat + off.toNat ≤ 255) :
    exec (.st rv rb off) s =
      .next ((s.writeCell ((s.readReg rb).toNat + off.toNat) (s.readReg rv)).complete .next .completed) :=
  (execSt_eq rv rb off s).trans (if_pos (Nat.lt_succ_of_le h))

/-- An LD whose address names a cell completes with the destination written (spec/42_load_store.md R211). -/
theorem exec_ld_eq_next {s : State} (rd : RegIx) {rb : RegIx} {off : Offset}
    (h : (s.readReg rb).toNat + off.toNat ≤ 255) :
    exec (.ld rd rb off) s =
      .next ((s.writeReg rd (s.readCell ((s.readReg rb).toNat + off.toNat))).complete .next .completed) :=
  (execLd_eq rd rb off s).trans (if_pos (Nat.lt_succ_of_le h))

/-- Where R0 already reads 0, a completed store leaves every register, R0 included, as it was. -/
theorem State.readReg_complete_writeCell {s : State} (h0 : s.readReg 0#5 = 0#16) (c : Nat) (v : Word) (a : PcAction)
    (r : Report) (i : RegIx) : ((s.writeCell c v).complete a r).readReg i = s.readReg i := by
  by_cases hi : i = 0#5
  · subst hi; simp [h0]
  · simp [hi]

/-- From a state whose R0 reads 0, an ST keeps every register, and its cell ends with the value, or with 0 if it is
D0. -/
theorem exec_st_regs_and_cell {s : State} (rv : RegIx) {rb : RegIx} {off : Offset} (h0 : s.readReg 0#5 = 0#16)
    (h : (s.readReg rb).toNat + off.toNat ≤ 255) :
    ∃ t, exec (.st rv rb off) s = .next t ∧ (∀ i, t.readReg i = s.readReg i) ∧
      t.readCell ((s.readReg rb).toNat + off.toNat) =
        if (s.readReg rb).toNat + off.toNat = 0 then 0#16 else s.readReg rv :=
  ⟨_, exec_st_eq_next rv h, State.readReg_complete_writeCell h0 _ _ _ _, by simp⟩

/-- Settles O25: the store keeps the base register, so the load reads the cell just written. -/
theorem loadSeesLastStore : Obligations.LoadSeesLastStore := by
  intro s rv rb rd off h0 hea
  obtain ⟨t, hst, hregs, hcell⟩ := exec_st_regs_and_cell rv h0 hea
  have hea' : (t.readReg rb).toNat + off.toNat ≤ 255 := by rwa [hregs]
  refine ⟨t, _, hst, exec_ld_eq_next rd hea', fun hrd => ?_⟩
  rw [State.complete_readReg, if_neg hrd, State.readReg_writeReg, if_pos rfl, hregs, hcell]

end Sys2Proof.Machine
end

section
/-! SUPPORT. Encoding and decoding are inverse, and each format's word is the sum of its placed fields
(spec/30_encoding.md R101 to R113, R140, R144). -/

namespace Sys2Proof

/-! The word of an instruction decodes to it. -/

/-- The word of every instruction has its opcode and its format's fixed bits. -/
theorem encode_fixedBits (i : Instr) : Laws.EncodingFixedBits.Statement i := by
  cases i with
  | nop => exact Laws.EncodingFixedBits.nop
  | add => exact Laws.EncodingFixedBits.add _ _ _
  | sub => exact Laws.EncodingFixedBits.sub _ _ _
  | xor => exact Laws.EncodingFixedBits.xor _ _ _
  | or => exact Laws.EncodingFixedBits.or _ _ _
  | and => exact Laws.EncodingFixedBits.and _ _ _
  | rsh => exact Laws.EncodingFixedBits.rsh _ _
  | adi => exact Laws.EncodingFixedBits.adi _ _ _
  | st => exact Laws.EncodingFixedBits.st _ _ _
  | ld => exact Laws.EncodingFixedBits.ld _ _ _
  | ptSt => exact Laws.EncodingFixedBits.ptSt _ _
  | ptLd => exact Laws.EncodingFixedBits.ptLd _ _
  | jmp => exact Laws.EncodingFixedBits.jmp _
  | cal => exact Laws.EncodingFixedBits.cal _
  | ret => exact Laws.EncodingFixedBits.ret
  | beq => exact Laws.EncodingFixedBits.beq _
  | bne => exact Laws.EncodingFixedBits.bne _
  | blt => exact Laws.EncodingFixedBits.blt _
  | bgt => exact Laws.EncodingFixedBits.bgt _
  | hlt => exact Laws.EncodingFixedBits.hlt

/-- The fields read from the word of an instruction are the instruction's own. -/
theorem instrOf_encode (i : Instr) : instrOf i.opcode (encode i) = i := by
  cases i <;> simp [encode, instrOf, Instr.opcode]

/-- Settles O1: the word has its opcode's code and fixed bits, and its fields read back. -/
theorem decodeEncodeRoundTrip : Obligations.DecodeEncodeRoundTrip := by
  intro i
  obtain ⟨hcode, hmask⟩ := encode_fixedBits i
  simp only [decode, hcode, Opcode.ofCode?_code, hmask, if_true, instrOf_encode]

/-! A word that decodes is the word of its instruction: in every format the fields and the fixed bits cover the word,
so placing all of them back gives the word. -/

/-- A field read from a word and placed back is the word's own bits at that position. -/
theorem place_field (w : InstrWord) (lo n : Nat) : place (field w lo n) lo = w &&& place (BitVec.allOnes n) lo := by
  apply BitVec.eq_of_getElem_eq
  intro i hi
  by_cases hlo : lo ≤ i
  · simp [place_getElem, field, hlo, BitVec.getLsbD_eq_getElem hi, Bool.and_comm]
  · simp [place_getElem, hlo]

/-- The opcode's code placed at bit 0 is the word's fixed bits, for a word that meets its format's mask. -/
theorem place_code {w m : InstrWord} {c : BitVec 5} (h : w &&& m = c.setWidth 32) : place c 0 = w &&& m := by
  simp [place, h]

theorem encodeN_field {w : InstrWord} {c : BitVec 5} (h : w &&& Format.N.mask = c.setWidth 32) : encodeN c = w := by
  simp only [encodeN, place_code h]
  exact BitVec.and_allOnes

theorem encodeR3_field {w : InstrWord} {c : BitVec 5} (h : w &&& Format.R3.mask = c.setWidth 32) :
    encodeR3 c (field w 5 5) (field w 10 5) (field w 15 5) = w := by
  simp only [encodeR3, place_field, place_code h, ← BitVec.and_or_distrib_left]
  exact BitVec.and_allOnes

theorem encodeR2_field {w : InstrWord} {c : BitVec 5} (h : w &&& Format.R2.mask = c.setWidth 32) :
    encodeR2 c (field w 5 5) (field w 10 5) = w := by
  simp only [encodeR2, place_field, place_code h, ← BitVec.and_or_distrib_left]
  exact BitVec.and_allOnes

theorem encodeI_field {w : InstrWord} {c : BitVec 5} (h : w &&& Format.I.mask = c.setWidth 32) :
    encodeI c (field w 5 5) (field w 10 5) (field w 15 16) = w := by
  simp only [encodeI, place_field, place_code h, ← BitVec.and_or_distrib_left]
  exact BitVec.and_allOnes

theorem encodeS_field {w : InstrWord} {c : BitVec 5} (h : w &&& Format.S.mask = c.setWidth 32) :
    encodeS c (field w 10 5) (field w 15 5) (field w 20 8) = w := by
  simp only [encodeS, place_field, place_code h, ← BitVec.and_or_distrib_left]
  exact BitVec.and_allOnes

theorem encodeL_field {w : InstrWord} {c : BitVec 5} (h : w &&& Format.L.mask = c.setWidth 32) :
    encodeL c (field w 5 5) (field w 15 5) (field w 20 8) = w := by
  simp only [encodeL, place_field, place_code h, ← BitVec.and_or_distrib_left]
  exact BitVec.and_allOnes

theorem encodePS_field {w : InstrWord} {c : BitVec 5} (h : w &&& Format.PS.mask = c.setWidth 32) :
    encodePS c (field w 10 5) (field w 15 3) = w := by
  simp only [encodePS, place_field, place_code h, ← BitVec.and_or_distrib_left]
  exact BitVec.and_allOnes

theorem encodePL_field {w : InstrWord} {c : BitVec 5} (h : w &&& Format.PL.mask = c.setWidth 32) :
    encodePL c (field w 5 5) (field w 18 3) = w := by
  simp only [encodePL, place_field, place_code h, ← BitVec.and_or_distrib_left]
  exact BitVec.and_allOnes

theorem encodeJ_field {w : InstrWord} {c : BitVec 5} (h : w &&& Format.J.mask = c.setWidth 32) :
    encodeJ c (field w 5 11) = w := by
  simp only [encodeJ, place_field, place_code h, ← BitVec.and_or_distrib_left]
  exact BitVec.and_allOnes

/-- A word with the fixed bits of an opcode is the word of the instruction read from it. -/
theorem encode_instrOf {op : Opcode} {w : InstrWord} (h : w &&& op.format.mask = op.matchWord) :
    encode (instrOf op w) = w := by
  cases op with
  | nop | ret | hlt => exact encodeN_field h
  | add | sub | xor | or | and => exact encodeR3_field h
  | rsh => exact encodeR2_field h
  | adi => exact encodeI_field h
  | st => exact encodeS_field h
  | ld => exact encodeL_field h
  | ptSt => exact encodePS_field h
  | ptLd => exact encodePL_field h
  | jmp | cal | beq | bne | blt | bgt => exact encodeJ_field h

/-- What decode answers: the code names no opcode; or it names one, and the fixed bits are wrong or the fields are
read (spec/30_encoding.md R111). -/
theorem decode_cases (w : InstrWord) :
    (20 ≤ w.toNat % 32 ∧ decode w = .error (.unknownOpcode w)) ∨
    (w.toNat % 32 < 20 ∧ decode w = .error (.reservedBitsSet w)) ∨
    ∃ op, w.toNat % 32 < 20 ∧ w &&& op.format.mask = op.matchWord ∧ decode w = .ok (instrOf op w) := by
  have hnone := Opcode.ofCode?_eq_none (field w 0 5)
  rw [field_opcode_toNat] at hnone
  unfold decode
  split
  next h => exact .inl ⟨hnone.1 h, rfl⟩
  next op h =>
    have hdefined : w.toNat % 32 < 20 := by
      by_contra hlt
      simp [hnone.2 (Nat.le_of_not_lt hlt)] at h
    split
    next hmask => exact .inr (.inr ⟨op, hdefined, hmask, rfl⟩)
    next => exact .inr (.inl ⟨hdefined, rfl⟩)

/-- Settles O2: a decoded word has the fixed bits of its opcode. -/
theorem encodeDecodeRoundTrip : Obligations.EncodeDecodeRoundTrip := by
  intro w i h
  rcases decode_cases w with ⟨_, e⟩ | ⟨_, e⟩ | ⟨op, _, hmask, e⟩ <;> rw [e] at h <;> cases h
  exact encode_instrOf hmask

/-! What decode refuses. -/

/-- Bit 31 is a zero field of every format. -/
theorem Opcode.format_mask_msb (op : Opcode) : op.format.mask.msb = true := by cases op <;> rfl

theorem Opcode.matchWord_msb (op : Opcode) : op.matchWord.msb = false := by cases op <;> rfl

/-- A word with the fixed bits of an opcode has bit 31 clear. -/
theorem toNat_lt_of_mask {op : Opcode} {w : InstrWord} (h : w &&& op.format.mask = op.matchWord) :
    w.toNat < 2 ^ 31 := by
  have hmsb := congrArg BitVec.msb h
  rw [BitVec.msb_and, op.format_mask_msb, op.matchWord_msb, Bool.and_true, BitVec.msb_eq_decide] at hmsb
  simpa using hmsb

/-- A word with a defined opcode is refused for its reserved bits exactly when it does not decode. -/
theorem decode_reserved_iff {w : InstrWord} (hw : w.toNat % 32 < 20) :
    decode w = .error (.reservedBitsSet w) ↔ ∀ i, decode w ≠ .ok i := by
  rcases decode_cases w with ⟨hle, _⟩ | ⟨_, e⟩ | ⟨op, _, _, e⟩
  · omega
  · simp [e]
  · simp [e]

/-- The two round trips as one: a word decodes to exactly the instruction whose word it is. -/
theorem decode_eq_ok_iff (w : InstrWord) (i : Instr) : decode w = .ok i ↔ encode i = w :=
  ⟨encodeDecodeRoundTrip w i, fun h => h ▸ decodeEncodeRoundTrip i⟩

/-- Settles O4: the cases of decode exclude each other, and a word that decodes has bit 31 clear. -/
theorem decodeRefusesByName : Obligations.DecodeRefusesByName := by
  refine ⟨fun w => ?_, fun w hw => ?_, fun w hw hmsb => (decode_reserved_iff hw).2 fun i h => ?_⟩
  · rcases decode_cases w with ⟨hle, e⟩ | ⟨hlt, e⟩ | ⟨_, hlt, _, e⟩ <;> simp [e]
    all_goals omega
  · simp only [decode_reserved_iff hw, ne_eq, decode_eq_ok_iff]
  · rcases decode_cases w with ⟨_, e⟩ | ⟨_, e⟩ | ⟨op, _, hmask, _⟩
    · simp [e] at h
    · simp [e] at h
    · exact absurd (toNat_lt_of_mask hmask) (Nat.not_lt.2 hmsb)

/-! The word of each format, as a number: the fields do not overlap, so their union is their sum. -/

/-- A number whose low `k` bits are 0, with those bits filled in. -/
theorem mul_two_pow_or (a : Nat) {b k : Nat} (h : b < 2 ^ k) : a * 2 ^ k ||| b = a * 2 ^ k + b := by
  rw [Nat.mul_comm, Nat.two_pow_add_eq_or_of_lt h]

theorem encodeN_toNat (c : BitVec 5) : (encodeN c).toNat = c.toNat := by
  simp [encodeN, place_toNat]

theorem encodeR3_toNat (c : BitVec 5) (rd rs1 rs2 : RegIx) :
    (encodeR3 c rd rs1 rs2).toNat = rs2.toNat * 2 ^ 15 + rs1.toNat * 2 ^ 10 + rd.toNat * 2 ^ 5 + c.toNat := by
  simp (disch := omega) only [encodeR3, BitVec.or_assoc, BitVec.toNat_or, place_toNat, mul_two_pow_or]
  omega

theorem encodeR2_toNat (c : BitVec 5) (rd rs : RegIx) :
    (encodeR2 c rd rs).toNat = rs.toNat * 2 ^ 10 + rd.toNat * 2 ^ 5 + c.toNat := by
  simp (disch := omega) only [encodeR2, BitVec.or_assoc, BitVec.toNat_or, place_toNat, mul_two_pow_or]
  omega

theorem encodeI_toNat (c : BitVec 5) (rd rs : RegIx) (imm : Imm) :
    (encodeI c rd rs imm).toNat = imm.toNat * 2 ^ 15 + rs.toNat * 2 ^ 10 + rd.toNat * 2 ^ 5 + c.toNat := by
  simp (disch := omega) only [encodeI, BitVec.or_assoc, BitVec.toNat_or, place_toNat, mul_two_pow_or]
  omega

theorem encodeS_toNat (c : BitVec 5) (rv rb : RegIx) (off : Offset) :
    (encodeS c rv rb off).toNat = off.toNat * 2 ^ 20 + rb.toNat * 2 ^ 15 + rv.toNat * 2 ^ 10 + c.toNat := by
  simp (disch := omega) only [encodeS, BitVec.or_assoc, BitVec.toNat_or, place_toNat, mul_two_pow_or]
  omega

theorem encodeL_toNat (c : BitVec 5) (rd rb : RegIx) (off : Offset) :
    (encodeL c rd rb off).toNat = off.toNat * 2 ^ 20 + rb.toNat * 2 ^ 15 + rd.toNat * 2 ^ 5 + c.toNat := by
  simp (disch := omega) only [encodeL, BitVec.or_assoc, BitVec.toNat_or, place_toNat, mul_two_pow_or]
  omega

theorem encodePS_toNat (c : BitVec 5) (rv : RegIx) (n : PortIx) :
    (encodePS c rv n).toNat = n.toNat * 2 ^ 15 + rv.toNat * 2 ^ 10 + c.toNat := by
  simp (disch := omega) only [encodePS, BitVec.or_assoc, BitVec.toNat_or, place_toNat, mul_two_pow_or]
  omega

theorem encodePL_toNat (c : BitVec 5) (rd : RegIx) (n : PortIx) :
    (encodePL c rd n).toNat = n.toNat * 2 ^ 18 + rd.toNat * 2 ^ 5 + c.toNat := by
  simp (disch := omega) only [encodePL, BitVec.or_assoc, BitVec.toNat_or, place_toNat, mul_two_pow_or]
  omega

theorem encodeJ_toNat (c : BitVec 5) (a : Addr) : (encodeJ c a).toNat = a.toNat * 2 ^ 5 + c.toNat := by
  simp (disch := omega) only [encodeJ, BitVec.toNat_or, place_toNat, mul_two_pow_or]
  omega

/-- Settles O3: each clause is its format's sum at the code of its opcode. -/
theorem formatsPlaceTheirFields : Obligations.FormatsPlaceTheirFields :=
  ⟨encodeN_toNat _, encodeN_toNat _, encodeN_toNat _,
    fun rd rs1 rs2 => ⟨encodeR3_toNat _ rd rs1 rs2, encodeR3_toNat _ rd rs1 rs2, encodeR3_toNat _ rd rs1 rs2,
      encodeR3_toNat _ rd rs1 rs2, encodeR3_toNat _ rd rs1 rs2⟩,
    fun rd rs => encodeR2_toNat _ rd rs, fun rd rs imm => encodeI_toNat _ rd rs imm,
    fun rv rb off => encodeS_toNat _ rv rb off, fun rd rb off => encodeL_toNat _ rd rb off,
    fun rv n => encodePS_toNat _ rv n, fun rd n => encodePL_toNat _ rd n,
    fun a => ⟨encodeJ_toNat _ a, encodeJ_toNat _ a, encodeJ_toNat _ a, encodeJ_toNat _ a, encodeJ_toNat _ a,
      encodeJ_toNat _ a⟩⟩

/-- Settles O5: each sample word is the word of its instruction. -/
theorem sampleWordsDecode : Obligations.SampleWordsDecode := by
  simp only [Obligations.SampleWordsDecode, decode_eq_ok_iff]
  decide

end Sys2Proof
end

section
/-! SUPPORT. The encoder over a program and the operand check of text decode (spec/30_encoding.md R131 to R133, R142,
R143). -/

namespace Sys2Proof.Machine

/-! The encoder over a program. -/

/-- What the encoder answers: every line decodes and it succeeds, or it reports the first line that does not. -/
theorem encodeLines_cases (prog : List Line) :
    ((∀ l ∈ prog, ∃ i, decodeLine l = .ok i) ∧ ∃ ws, encodeLines prog = .ok ws) ∨
    ∃ before l after, prog = before ++ l :: after ∧ (∀ k ∈ before, ∃ i, decodeLine k = .ok i) ∧
      (∀ i, decodeLine l ≠ .ok i) ∧ encodeLines prog = .error (.encoding l) := by
  induction prog with
  | nil => exact .inl ⟨by simp, [], rfl⟩
  | cons l ls ih =>
    cases hl : decodeLine l with
    | error => exact .inr ⟨[], l, ls, rfl, by simp, by simp [hl], by simp [encodeLines, hl]⟩
    | ok i =>
      rcases ih with ⟨hall, ws, hws⟩ | ⟨before, k, after, rfl, hbefore, hk, herror⟩
      · exact .inl ⟨List.forall_mem_cons.2 ⟨⟨i, hl⟩, hall⟩, encode i :: ws, by simp [encodeLines, hl, hws]⟩
      · exact .inr ⟨l :: before, k, after, rfl, List.forall_mem_cons.2 ⟨⟨i, hl⟩, hbefore⟩, hk,
          by simp [encodeLines, hl, herror]⟩

/-- Settles O57: the two answers of the encoder exclude each other. -/
theorem encoderFailsWhereTextDecodeFails : Obligations.EncoderFailsWhereTextDecodeFails := by
  intro prog
  rcases encodeLines_cases prog with ⟨hall, hok⟩ | ⟨before, l, after, hprog, hbefore, hl, herror⟩
  · refine ⟨iff_of_true hok hall, fun e he => ?_⟩
    obtain ⟨ws, hws⟩ := hok
    simp [hws] at he
  · refine ⟨iff_of_false (by simp [herror]) fun hall => ?_, fun e he => ?_⟩
    · obtain ⟨i, hi⟩ := hall l (by simp [hprog])
      exact hl i hi
    · exact ⟨before, l, after, hprog, hbefore, hl, by simpa [herror, eq_comm] using he⟩

/-! The operand check. -/

/-- An operand fits its place exactly when it has a value there and the value is below the bound. -/
theorem fits_iff_operandValue? (k : OperandKind) (o : Operand) :
    o.fits k = true ↔ ∃ n, operandValue? k o = some n ∧ n < k.bound := by
  cases k <;> cases o <;> simp [Operand.fits, operandValue?]

/-- The operands have values from the left exactly when the first one fits its place and the others have values. -/
theorem operandValues_cons_ok_iff (pos : Nat) (k : OperandKind) (ks : List OperandKind) (o : Operand)
    (os : List Operand) :
    (∃ vs, operandValues pos (k :: ks) (o :: os) = .ok vs) ↔
      o.fits k = true ∧ ∃ vs, operandValues (pos + 1) ks os = .ok vs := by
  rw [fits_iff_operandValue?, operandValues]
  cases operandValue? k o with
  | none => simp
  | some n =>
    by_cases hn : n < k.bound
    · cases operandValues (pos + 1) ks os <;> simp [hn]
    · simp [hn]

/-- Where there are as many operands as kinds, they have values exactly when each fits its place. -/
theorem operandValues_ok_iff (pos : Nat) {ks : List OperandKind} {os : List Operand} (hlen : os.length = ks.length) :
    (∃ vs, operandValues pos ks os = .ok vs) ↔ (List.zipWith Operand.fits ks os).all id = true := by
  induction ks generalizing pos os with
  | nil =>
    obtain rfl := List.length_eq_zero_iff.1 hlen
    simp [operandValues]
  | cons k ks ih =>
    obtain ⟨o, os, rfl⟩ := List.exists_cons_of_length_eq_add_one hlen
    rw [operandValues_cons_ok_iff, ih (pos + 1) (Nat.succ.inj hlen), List.zipWith_cons_cons, List.all_cons,
      Bool.and_eq_true, id_eq]

/-- The operand check admits exactly the well-formed operand lists. -/
theorem checkOperands_ok_iff (op : Opcode) (os : List Operand) :
    (∃ vs, checkOperands op os = .ok vs) ↔ wellFormedOperands op os = true := by
  unfold checkOperands wellFormedOperands
  split
  next hlen => simp [operandValues_ok_iff 0 hlen, hlen]
  next hlen => simp [hlen]

/-- What each kind of operand admits, with the bounds of spec/30_encoding.md R131. -/
theorem fits_iff (k : OperandKind) (o : Operand) : o.fits k = true ↔
    (k = .reg ∧ ∃ n, o = .reg n ∧ n < 32) ∨ (k = .port ∧ ∃ n, o = .port n ∧ n < 8) ∨
    (k = .imm16 ∧ ∃ n, o = .num n ∧ n < 65536) ∨ (k = .off8 ∧ ∃ n, o = .num n ∧ n < 256) ∨
    (k = .addr11 ∧ ∃ n, o = .num n ∧ n < 2048) := by
  rw [fits_iff_operandValue?]
  cases k <;> cases o <;> simp [operandValue?, OperandKind.bound]

/-- Settles O58: the shapes are those of `Opcode.shape`, opcode by opcode. -/
theorem operandCheckIsExact : Obligations.OperandCheckIsExact :=
  ⟨checkOperands_ok_iff, fits_iff, by decide, by decide, rfl, rfl, by decide, by decide, by decide⟩

end Sys2Proof.Machine
end

section
/-! SUPPORT. Binary lines and the words they stand for, and the loader (spec/30_encoding.md R114). -/

namespace Sys2Proof

/-- The number a binary line stands for has the line's characters, read from the right, as its bits. -/
theorem foldl_binary_testBit (l : Line) (k : Nat) :
    (l.foldl (fun n c => 2 * n + (if c = '1' then 1 else 0)) 0).testBit k = decide (l.reverse[k]? = some '1') := by
  induction l using List.reverseRecOn generalizing k with
  | nil => simp
  | append_singleton l c ih =>
    simp only [List.foldl_append, List.foldl_cons, List.foldl_nil, List.reverse_append, List.reverse_singleton,
      List.singleton_append]
    cases k with
    | zero => by_cases hc : c = '1' <;> simp [hc, Nat.testBit_zero]
    | succ k =>
      rw [Nat.testBit_succ, List.getElem?_cons_succ, ← ih]
      congr 1
      split <;> omega

theorem lineWord_getLsbD (l : Line) {k : Nat} (hk : k < 32) :
    (lineWord l).getLsbD k = decide (l.reverse[k]? = some '1') := by
  simp only [lineWord, BitVec.getLsbD_ofNat, hk, decide_true, Bool.true_and, foldl_binary_testBit]

/-- The line of a word stands for the word. -/
theorem lineWord_wordLine (w : InstrWord) : lineWord (wordLine w) = w := by
  apply BitVec.eq_of_getLsbD_eq
  intro k hk
  rw [lineWord_getLsbD _ hk, List.getElem?_reverse (by simpa using hk), wordLine_length,
    wordLine_get w _ (by omega), show 31 - (32 - 1 - k) = k by omega]
  cases w.getLsbD k <;> simp

/-- The form of a binary line, one character at a time. -/
theorem wellFormedImageLine_iff (l : Line) :
    wellFormedImageLine l = true ↔ l.length = 32 ∧ ∀ c ∈ l, c = '0' ∨ c = '1' := by
  simp [wellFormedImageLine]

/-- The line of a word has the form of a binary line. -/
theorem wordLine_wellFormed (w : InstrWord) : wellFormedImageLine (wordLine w) = true := by
  rw [wellFormedImageLine_iff]
  refine ⟨wordLine_length w, fun c hc => ?_⟩
  obtain ⟨k, _, rfl⟩ := List.mem_map.1 hc
  split
  next => exact .inr rfl
  next => exact .inl rfl

/-- A line of the right form is the line of the word it stands for. -/
theorem wordLine_lineWord {l : Line} (h : wellFormedImageLine l = true) : wordLine (lineWord l) = l := by
  obtain ⟨hlen, hchars⟩ := (wellFormedImageLine_iff l).1 h
  apply List.ext_getElem (by simp [hlen])
  intro k hk hkl
  have hk : k < 32 := hlen ▸ hkl
  have hget := wordLine_get (lineWord l) k hk
  rw [lineWord_getLsbD l (by omega), List.getElem?_reverse (by omega), hlen, show 32 - 1 - (31 - k) = k by omega,
    List.getElem?_eq_getElem hkl, List.getElem?_eq_getElem (by simpa using hk), Option.some_inj] at hget
  rw [hget]
  rcases hchars _ (List.getElem_mem hkl) with hc | hc <;> simp [hc]

end Sys2Proof

namespace Sys2Proof.Machine

/-- The form of an image, one line at a time. -/
theorem wellFormedImage_iff (ls : List Line) :
    wellFormedImage ls = true ↔ (∀ l ∈ ls, wellFormedImageLine l = true) ∧ ls.length ≤ Config.imemMax := by
  simp [wellFormedImage]

/-- The loader succeeds exactly on well-formed images, and gives the word of each line. -/
theorem loadImage_eq_ok_iff (ls : List Line) (ws : List InstrWord) :
    loadImage ls = .ok ws ↔ wellFormedImage ls = true ∧ ws = ls.map lineWord := by
  rw [wellFormedImage_iff]
  unfold loadImage
  split
  next l hfind =>
    have hl := List.find?_some hfind
    have hmem := List.mem_of_find?_eq_some hfind
    simp only [reduceCtorEq, false_iff]
    rintro ⟨⟨hall, _⟩, _⟩
    simp [hall l hmem] at hl
  next hfind =>
    have hall : ∀ l ∈ ls, wellFormedImageLine l = true := by simpa using hfind
    split
    next hlen => exact ⟨fun h => by cases h; exact ⟨⟨hall, hlen⟩, rfl⟩, fun ⟨_, e⟩ => e ▸ rfl⟩
    next hlen => simp [hlen]

/-- The image a program of at most 2048 words writes is well formed. -/
theorem binaryProgram_wellFormed {ws : List InstrWord} (h : ws.length ≤ Config.imemMax) :
    wellFormedImage (binaryProgram ws) = true := by
  rw [wellFormedImage_iff]
  refine ⟨fun l hl => ?_, by simpa [binaryProgram] using h⟩
  obtain ⟨w, _, rfl⟩ := List.mem_map.1 hl
  exact wordLine_wellFormed w

/-- The words of the image a program writes are the program. -/
theorem binaryProgram_map_lineWord (ws : List InstrWord) : (binaryProgram ws).map lineWord = ws := by
  simp [binaryProgram, Function.comp_def, lineWord_wordLine]

/-- The image that the words of a well-formed image write is that image. -/
theorem binaryProgram_of_wellFormed {ls : List Line} (h : wellFormedImage ls = true) :
    binaryProgram (ls.map lineWord) = ls := by
  obtain ⟨hall, _⟩ := (wellFormedImage_iff ls).1 h
  rw [binaryProgram, List.map_map]
  exact (List.map_congr_left fun l hl => wordLine_lineWord (hall l hl)).trans (List.map_id ls)

/-- Settles O59: lines and words stand for each other, and the loader maps lines to words. -/
theorem binaryProgramLoadsBack : Obligations.BinaryProgramLoadsBack := by
  refine ⟨fun ws hlen => ?_, fun ls => ?_, fun ls ws h => ?_⟩
  · exact (loadImage_eq_ok_iff _ _).2 ⟨binaryProgram_wellFormed hlen, (binaryProgram_map_lineWord ws).symm⟩
  · simp [loadImage_eq_ok_iff]
  · obtain ⟨hwf, rfl⟩ := (loadImage_eq_ok_iff ls ws).1 h
    exact binaryProgram_of_wellFormed hwf

end Sys2Proof.Machine
end

section
/-! SUPPORT. Label extraction and label resolution, line by line, and where a label points (spec/30_encoding.md R126,
R127). -/

namespace Sys2Proof.Machine

/-! The value of a name in a list that has grown. -/

/-- The first list that has the name gives its value. -/
theorem lookupName_append {α : Type} (t : Token) (ps qs : List (Token × α)) :
    lookupName t (ps ++ qs) = (lookupName t ps).or (lookupName t qs) := by
  induction ps with
  | nil => simp [lookupName]
  | cons p ps ih =>
    by_cases hp : p.1 = t <;> simp [lookupName, hp, ih]

/-! Label extraction. -/

/-- A line counts as an instruction exactly when something is left without its label. -/
theorem instructionLine_eq_true_iff (l : Line) :
    instructionLine l = true ↔ ∃ op args, withoutLabel (tokenize l) = op :: args := by
  unfold instructionLine
  cases withoutLabel (tokenize l) <;> simp

/-- The counter of label extraction after a line: an instruction line moves it by one (spec/30_encoding.md R126). -/
def counterAfter (addr : Nat) (l : Line) : Nat := addr + ([l].filter instructionLine).length

theorem counterAfter_of_blank {l : Line} (addr : Nat) (h : tokenize l = []) : counterAfter addr l = addr := by
  simp [counterAfter, instructionLine, withoutLabel, h]

theorem counterAfter_of_label {l : Line} {t : Token} {ts : List Token} (addr : Nat) (h : tokenize l = t :: ts)
    (hdot : startsWithDot t = true) : counterAfter addr l = if ts.isEmpty then addr else addr + 1 := by
  cases ts <;> simp [counterAfter, instructionLine, withoutLabel, h, hdot]

theorem counterAfter_of_plain {l : Line} {t : Token} {ts : List Token} (addr : Nat) (h : tokenize l = t :: ts)
    (hdot : startsWithDot t = false) : counterAfter addr l = addr + 1 := by
  simp [counterAfter, instructionLine, withoutLabel, h, hdot]

/-- The counter after a line counts the instruction lines of a list that begins with the line. -/
theorem counterAfter_add (addr : Nat) (l : Line) (ls : List Line) :
    counterAfter addr l + (ls.filter instructionLine).length = addr + ((l :: ls).filter instructionLine).length := by
  rw [counterAfter, Nat.add_assoc, ← List.length_append, ← List.filter_append, List.singleton_append]

/-- One line of label extraction: a new label joins the list with the counter as its address, a line without a label
leaves the list, and the counter moves on. -/
theorem extractLabels_cons {addr : Nat} {labels out : List (Token × Nat)} {l : Line} {ls : List Line}
    (h : extractLabels addr labels (l :: ls) = .ok out) :
    (∃ t ts, tokenize l = t :: ts ∧ startsWithDot t = true ∧ lookupName t labels = none ∧
      extractLabels (counterAfter addr l) (labels ++ [(t, addr)]) ls = .ok out) ∨
    (∀ t ts, tokenize l = t :: ts → startsWithDot t = false) ∧
      extractLabels (counterAfter addr l) labels ls = .ok out := by
  unfold extractLabels at h
  split at h
  next htok => exact .inr ⟨by simp [htok], (counterAfter_of_blank addr htok).symm ▸ h⟩
  next t ts htok =>
    split at h
    next hdot =>
      split at h
      next => cases h
      next hnew => exact .inl ⟨t, ts, htok, hdot, hnew, (counterAfter_of_label addr htok hdot).symm ▸ h⟩
    next hdot =>
      have hplain := Bool.eq_false_of_not_eq_true hdot
      exact .inr ⟨by simp [htok, hplain], (counterAfter_of_plain addr htok hplain).symm ▸ h⟩

/-- Label extraction only adds labels at the end, and each address it adds is the counter somewhere in the list. -/
theorem extractLabels_extends {addr : Nat} {labels out : List (Token × Nat)} {ls : List Line}
    (h : extractLabels addr labels ls = .ok out) :
    ∃ more, out = labels ++ more ∧ ∀ p ∈ more, p.2 ≤ addr + (ls.filter instructionLine).length := by
  induction ls generalizing addr labels with
  | nil =>
    cases h
    exact ⟨[], (List.append_nil _).symm, by simp⟩
  | cons l ls ih =>
    have hcount := counterAfter_add addr l ls
    rcases extractLabels_cons h with ⟨t, ts, _, _, _, hrest⟩ | ⟨_, hrest⟩
    · obtain ⟨more, rfl, hmore⟩ := ih hrest
      refine ⟨(t, addr) :: more, by simp, List.forall_mem_cons.2 ⟨Nat.le_add_right _ _, fun p hp => ?_⟩⟩
      exact hcount ▸ hmore p hp
    · obtain ⟨more, rfl, hmore⟩ := ih hrest
      exact ⟨more, rfl, fun p hp => hcount ▸ hmore p hp⟩

/-- A label keeps the address it was given first. -/
theorem lookupName_extractLabels {addr a : Nat} {labels out : List (Token × Nat)} {ls : List Line} {t : Token}
    (h : extractLabels addr labels ls = .ok out) (ht : lookupName t labels = some a) : lookupName t out = some a := by
  obtain ⟨more, rfl, _⟩ := extractLabels_extends h
  simp [lookupName_append, ht]

/-- The label of a label line has as its address the counter at that line, by induction on the lines before it. -/
theorem lookupName_labelLine {addr : Nat} {labels out : List (Token × Nat)} {before after : List Line} {l : Line}
    {t : Token} {ts : List Token} (h : extractLabels addr labels (before ++ l :: after) = .ok out)
    (htok : tokenize l = t :: ts) (hdot : startsWithDot t = true) :
    lookupName t out = some (addr + (before.filter instructionLine).length) := by
  induction before generalizing addr labels with
  | nil =>
    rcases extractLabels_cons h with ⟨t', ts', htok', _, hnew, hrest⟩ | ⟨hplain, _⟩
    · obtain ⟨rfl, rfl⟩ := List.cons.inj (htok.symm.trans htok')
      exact lookupName_extractLabels hrest (by simp [lookupName_append, hnew, lookupName])
    · simp [hplain t ts htok] at hdot
  | cons k before ih =>
    rw [← counterAfter_add]
    rcases extractLabels_cons h with ⟨_, _, _, _, _, hrest⟩ | ⟨_, hrest⟩ <;> exact ih hrest

/-! Label resolution. -/

/-- One line of label resolution: a line that is no instruction goes, an instruction line becomes its tokens without
the label and with the label operands resolved. -/
theorem resolveLabels_cons {labels : List (Token × Nat)} {l : Line} {ls out : List Line}
    (h : resolveLabels labels (l :: ls) = .ok out) :
    (instructionLine l = false ∧ resolveLabels labels ls = .ok out) ∨
    ∃ op args r rest, instructionLine l = true ∧ withoutLabel (tokenize l) = op :: args ∧
      resolveOperands labels l args = .ok r ∧ resolveLabels labels ls = .ok rest ∧
      out = joinTokens (op :: r) :: rest := by
  unfold resolveLabels at h
  split at h
  next htok => exact .inl ⟨by simp [instructionLine, htok], h⟩
  next op args htok =>
    split at h
    next => cases h
    next r hr =>
      split at h
      next rest hrest =>
        cases h
        exact .inr ⟨op, args, r, rest, (instructionLine_eq_true_iff l).2 ⟨op, args, htok⟩, htok, hr, hrest, rfl⟩
      next => cases h

/-- Label resolution leaves one line for each instruction line. -/
theorem resolveLabels_length {labels : List (Token × Nat)} {ls out : List Line}
    (h : resolveLabels labels ls = .ok out) : out.length = (ls.filter instructionLine).length := by
  induction ls generalizing out with
  | nil => cases h; rfl
  | cons l ls ih =>
    rcases resolveLabels_cons h with ⟨hl, hrest⟩ | ⟨op, args, r, rest, hl, _, _, hrest, rfl⟩ <;>
      simp [hl, ih hrest]

/-- The final list holds an instruction line, resolved, at the number of instruction lines before it; by induction on
the lines before it. -/
theorem resolveLabels_instructionLine {labels : List (Token × Nat)} {before after out : List Line} {l : Line}
    (h : resolveLabels labels (before ++ l :: after) = .ok out) (hl : instructionLine l = true) :
    ∃ op args r, withoutLabel (tokenize l) = op :: args ∧ resolveOperands labels l args = .ok r ∧
      out[(before.filter instructionLine).length]? = some (joinTokens (op :: r)) := by
  induction before generalizing out with
  | nil =>
    rcases resolveLabels_cons h with ⟨hl', _⟩ | ⟨op, args, r, rest, _, htok, hr, _, rfl⟩
    · simp [hl] at hl'
    · exact ⟨op, args, r, htok, hr, rfl⟩
  | cons k before ih =>
    rcases resolveLabels_cons h with ⟨hk, hrest⟩ | ⟨_, _, _, rest, hk, _, _, hrest, rfl⟩ <;>
      simpa [hk] using ih hrest

/-- Settles O60: labels are numbered by the instruction lines before them, and so is the final list. -/
theorem labelsPointIntoTheProgram : Obligations.LabelsPointIntoTheProgram := by
  intro ls out labels hextract hresolve
  have hlen := resolveLabels_length hresolve
  refine ⟨fun p hp => ?_, hlen, fun before after l t ts hls htok hdot => ?_, fun before after l hls hl => ?_⟩
  · obtain ⟨more, rfl, hmore⟩ := extractLabels_extends hextract
    rw [hlen, ← Nat.zero_add (ls.filter instructionLine).length]
    exact hmore p hp
  · rw [← Nat.zero_add (before.filter instructionLine).length]
    exact lookupName_labelLine (hls ▸ hextract) htok hdot
  · exact resolveLabels_instructionLine (hls ▸ hresolve) hl

end Sys2Proof.Machine
end

section
/-! SUPPORT. The cycle of spec/40_cycle_system.md R170 to R177: which instruction a step runs, where it stops, which
instructions fault, and what the completion leaves alone. -/

namespace Sys2Proof.Machine

/-- Past the program the step is an overrun (spec/40_cycle_system.md R171). -/
theorem step_of_fetch_none {s : State} (h : fetch s = none) : step s = .fault (.overrun s.pc) := by
  simp [step, h]

/-- A word that does not decode stops the step with its decode fault (spec/40_cycle_system.md R172). -/
theorem step_of_decode_error {s : State} {w : InstrWord} {e : DecodeFault} (hfetch : fetch s = some w)
    (hdecode : decode w = .error e) : step s = .fault (Fault.ofDecode e) := by
  simp [step, hfetch, hdecode]

/-- A word that decodes runs its instruction, with nothing around it (spec/40_cycle_system.md R173, R177). -/
theorem step_of_decode_ok {s : State} {w : InstrWord} {i : Instr} (hfetch : fetch s = some w)
    (hdecode : decode w = .ok i) : step s = exec i s := by
  simp [step, hfetch, hdecode]

/-- Settles O6: `fetch` reads the word at PC. -/
theorem stepRunsDecoded : Obligations.StepRunsDecoded := fun _ _ _ => step_of_decode_ok

/-- Settles O7: the stops of the fetch and of decode. -/
theorem stepStopsAtFetchAndDecode : Obligations.StepStopsAtFetchAndDecode :=
  ⟨fun _ hpc => step_of_fetch_none (List.getElem?_eq_none hpc), fun _ _ => step_of_decode_error,
    fun _ _ => step_of_decode_error⟩

/-- At the word of an instruction the step is that instruction. -/
theorem step_of_fetch_encode {s : State} {i : Instr} (h : fetch s = some (encode i)) : step s = exec i s :=
  step_of_decode_ok h (decodeEncodeRoundTrip i)

/-- A step completes exactly when PC is at the word of an instruction that completes. -/
theorem step_eq_next_iff (s t : State) :
    step s = .next t ↔ ∃ i, fetch s = some (encode i) ∧ exec i s = .next t := by
  constructor
  · intro h
    obtain ⟨w, i, hfetch, hdecode, hexec⟩ := step_next h
    obtain rfl := encodeDecodeRoundTrip w i hdecode
    exact ⟨i, hfetch, hexec⟩
  · rintro ⟨i, hfetch, hexec⟩
    exact (step_of_fetch_encode hfetch).trans hexec

/-- Settles O9: a step that completes ends with the completion, which forces both zeros and cuts the stack. -/
theorem everyStepForcesZerosAndCutsTheStack : Obligations.EveryStepForcesZerosAndCutsTheStack := by
  intro s t h
  obtain ⟨i, _, hexec⟩ := (step_eq_next_iff s t).1 h
  obtain ⟨s1, a, r, rfl, _⟩ := exec_completes i s t hexec
  exact ⟨by simp, by simp, State.complete_cs s1 a r ▸ last16_length_le s1.cs⟩

/-! Which instructions fault. -/

/-- A load or store whose access completes faults exactly on an effective address above 255
(spec/20_memory.md R72). -/
theorem withCell_eq_fault_iff {k : Nat → Result} (hk : ∀ ea f, k ea ≠ .fault f) (s : State) (rb : RegIx)
    (off : Offset) (f : Fault) :
    withCell s rb off k = .fault f ↔
      255 < (s.readReg rb).toNat + off.toNat ∧ f = .dataAddressFault ((s.readReg rb).toNat + off.toNat) := by
  rcases withCell_cases s rb off k with ⟨hlt, e⟩ | ⟨hle, e⟩ <;> rw [e]
  · exact iff_of_false (hk _ f) fun ⟨hgt, _⟩ => Nat.not_lt.2 (Nat.le_of_lt_succ hlt) hgt
  · exact ⟨fun h => by cases h; exact ⟨hle, rfl⟩, fun ⟨_, h⟩ => h ▸ rfl⟩

theorem exec_st_eq_fault_iff (rv rb : RegIx) (off : Offset) (s : State) (f : Fault) :
    exec (.st rv rb off) s = .fault f ↔
      255 < (s.readReg rb).toNat + off.toNat ∧ f = .dataAddressFault ((s.readReg rb).toNat + off.toNat) :=
  withCell_eq_fault_iff (fun _ _ => finish_ne_fault _ _ _ _) s rb off f

theorem exec_ld_eq_fault_iff (rd rb : RegIx) (off : Offset) (s : State) (f : Fault) :
    exec (.ld rd rb off) s = .fault f ↔
      255 < (s.readReg rb).toNat + off.toNat ∧ f = .dataAddressFault ((s.readReg rb).toNat + off.toNat) :=
  withCell_eq_fault_iff (fun _ _ => finish_ne_fault _ _ _ _) s rb off f

/-- RET faults exactly on an empty call stack (spec/44_control.md R262). -/
theorem exec_ret_eq_fault_iff (s : State) (f : Fault) :
    exec .ret s = .fault f ↔ s.cs = [] ∧ f = .callStackUnderflow s.pc := by
  simp only [exec, execRet, State.top?]
  split
  next htop => simp [List.getLast?_eq_none_iff.1 htop, eq_comm]
  next t htop => exact iff_of_false (finish_ne_fault _ _ _ _) fun ⟨hcs, _⟩ => by simp [hcs] at htop

/-- No instruction is refused. -/
theorem exec_ne_refused (i : Instr) (s : State) (r : Refusal) : exec i s ≠ .refused r := by
  cases i with
  | st rv rb off =>
    simp only [exec, execSt_eq]
    split <;> simp
  | ld rd rb off =>
    simp only [exec, execLd_eq]
    split <;> simp
  | ret =>
    simp only [exec, execRet]
    split <;> simp
  | _ => exact finish_ne_refused _ _ _ _

/-- Settles O8: every instruction but ST, LD and RET always runs to its completion. -/
theorem onlyThreeInstructionsFault : Obligations.OnlyThreeInstructionsFault := by
  intro i s
  refine ⟨exec_ne_refused i s, fun f => ?_⟩
  cases i with
  | st rv rb off => rw [exec_st_eq_fault_iff]; simp
  | ld rd rb off => rw [exec_ld_eq_fault_iff]; simp
  | ret => rw [exec_ret_eq_fault_iff]; simp
  | _ => exact iff_of_false (finish_ne_fault _ _ _ _) (by simp)

/-! What the completion leaves alone, and NOP and HLT. -/

/-- The completion leaves every device alone. -/
theorem State.complete_sameDevices (s : State) (a : PcAction) (r : Report) : SameDevices s (s.complete a r) :=
  ⟨⟨rfl, ⟨rfl, rfl, rfl, rfl, rfl⟩, ⟨rfl, rfl, rfl⟩, ⟨rfl, rfl⟩⟩, rfl⟩

/-- The completion leaves the program and the host's state alone. -/
theorem State.complete_sameHost (s : State) (a : PcAction) (r : Report) : SameHost s (s.complete a r) :=
  ⟨rfl, rfl, rfl, rfl, rfl⟩

/-- The PC action `next` adds one, modulo 2^16 (spec/40_cycle_system.md R175). -/
theorem State.complete_next_advanced (s : State) (r : Report) : Advanced s (s.complete .next r) :=
  BitVec.toNat_add s.pc 1#16

/-- Settles O43: NOP is the completion alone. -/
theorem nopResult : Obligations.NopResult :=
  ⟨rfl, fun s => ⟨_, rfl, State.complete_readReg s _ _, State.complete_readCell s _ _, rfl,
    State.complete_next_advanced s _, State.complete_cs s _ _, State.complete_sameDevices s _ _,
    State.complete_sameHost s _ _, rfl, rfl⟩⟩

/-- The state a HLT leaves (spec/40_cycle_system.md R181, R182). -/
def State.halt (s : State) : State := s.haltRun.complete .stay .halted

/-- HLT always completes, with that state. -/
theorem exec_hlt (s : State) : exec .hlt s = .next s.halt := rfl

@[simp] theorem State.halt_pc (s : State) : s.halt.pc = s.pc := rfl
@[simp] theorem State.halt_imem (s : State) : s.halt.imem = s.imem := rfl
@[simp] theorem State.halt_report (s : State) : s.halt.report = .halted := rfl
@[simp] theorem State.halt_runState (s : State) : s.halt.runState = .halted := rfl
@[simp] theorem State.halt_rand (s : State) : s.halt.rand = Config.randDraw s.drawCount := rfl

/-- HLT leaves every device alone. -/
theorem State.halt_sameDevices (s : State) : SameDevices s s.halt :=
  ⟨⟨rfl, ⟨rfl, rfl, rfl, rfl, rfl⟩, ⟨rfl, rfl, rfl⟩, ⟨rfl, rfl⟩⟩, rfl⟩

/-- Settles O44: HLT is the completion around the new run state. -/
theorem haltResult : Obligations.HaltResult :=
  ⟨rfl, fun s => ⟨_, exec_hlt s, s.halt_pc, s.halt_runState, s.halt_report,
    State.complete_readReg s.haltRun _ _, State.complete_readCell s.haltRun _ _, rfl,
    State.complete_cs s.haltRun _ _, s.halt_sameDevices, s.halt_imem, rfl, rfl, rfl, s.halt_rand⟩⟩

end Sys2Proof.Machine
end

section
/-! SUPPORT. What a step reports to the host (spec/00_scope.md R13, spec/40_cycle_system.md R176), and which
instruction halts or drops a pixel. -/

namespace Sys2Proof.Machine

/-- The outcome that hands a next state to the host with a report. -/
def StepOutcome.reporting (t : State) : Report → StepOutcome
  | .completed => .completed t
  | .halted => .halted t
  | .screenError x y => .screenError t x y

theorem outcomeOfNext_eq_reporting (t : State) : outcomeOfNext t = .reporting t t.report := by
  unfold outcomeOfNext StepOutcome.reporting
  cases t.report <;> rfl

/-- An outcome that hands on a next state determines the state and the report. -/
theorem StepOutcome.reporting_inj {t t' : State} {r r' : Report} :
    StepOutcome.reporting t r = .reporting t' r' ↔ t = t' ∧ r = r' := by
  cases r <;> cases r' <;> simp [StepOutcome.reporting]

/-- What a step hands to the host: its next state with the report of that state, or the reason it stopped. -/
theorem stepOutcome_cases (s : State) :
    (∃ t, step s = .next t ∧ stepOutcome s = .reporting t t.report) ∨
      (∀ t, step s ≠ .next t) ∧ ∀ t r, stepOutcome s ≠ .reporting t r := by
  unfold stepOutcome
  split
  next t hstep => exact .inl ⟨t, hstep, outcomeOfNext_eq_reporting t⟩
  all_goals
    next hstep => exact .inr ⟨by simp [hstep], fun t r => by cases r <;> simp [StepOutcome.reporting]⟩

/-- The host is handed a next state with a report exactly when the step completes in it and it has that report. -/
theorem stepOutcome_eq_reporting_iff (s t : State) (r : Report) :
    stepOutcome s = .reporting t r ↔ step s = .next t ∧ t.report = r := by
  rcases stepOutcome_cases s with ⟨t', hstep, houtcome⟩ | ⟨hstep, houtcome⟩
  · rw [hstep, houtcome, StepOutcome.reporting_inj, Host.Outcome.next.injEq]
    exact ⟨fun ⟨ht, hr⟩ => ⟨ht, ht ▸ hr⟩, fun ⟨ht, hr⟩ => ⟨ht, ht ▸ hr⟩⟩
  · exact iff_of_false (houtcome t r) fun ⟨h, _⟩ => hstep t h

/-- What the instruction at `s` reports when it completes (spec/40_cycle_system.md R176). -/
def reportOf (i : Instr) (s : State) : Report :=
  match i with
  | .hlt => .halted
  | .ptSt rv n => (portWrite n (s.readReg rv) s).2
  | _ => .completed

/-- The next state of an instruction carries the instruction's report. -/
theorem exec_report {i : Instr} {s t : State} (h : exec i s = .next t) : t.report = reportOf i s := by
  cases i with
  | st rv rb off =>
    simp only [exec, execSt_eq] at h
    split at h
    next => cases h; rfl
    next => cases h
  | ld rd rb off =>
    simp only [exec, execLd_eq] at h
    split at h
    next => cases h; rfl
    next => cases h
  | ret =>
    simp only [exec, execRet] at h
    split at h
    next => cases h
    next => cases h; rfl
  | _ => cases h; rfl

/-- The host is handed a next state with a report exactly when the instruction at PC completes in it and reports
that. -/
theorem stepOutcome_eq_reporting_iff_exec (s t : State) (r : Report) :
    stepOutcome s = .reporting t r ↔
      ∃ i, fetch s = some (encode i) ∧ exec i s = .next t ∧ reportOf i s = r := by
  rw [stepOutcome_eq_reporting_iff, step_eq_next_iff]
  constructor
  · rintro ⟨⟨i, hfetch, hexec⟩, rfl⟩
    exact ⟨i, hfetch, hexec, (exec_report hexec).symm⟩
  · rintro ⟨i, hfetch, hexec, rfl⟩
    exact ⟨⟨i, hfetch, hexec⟩, exec_report hexec⟩

/-- A draw reports the pending coordinates exactly when they are out of range (spec/43_ports.md R236). -/
theorem writeDraw_report (s : State) :
    (writeDraw s).2 = if s.penInRange = false then .screenError s.penX s.penY else .completed := by
  rcases writeDraw_cases s with ⟨hpen, e⟩ | ⟨hpen, e⟩ <;> simp [e, hpen]

/-- A port write reports a dropped pixel exactly at port 4 with the pending coordinates out of range. -/
theorem portWrite_report (n : PortIx) (v : Word) (s : State) :
    (portWrite n v s).2 =
      if n = 4#3 ∧ s.penInRange = false then .screenError s.penX s.penY else .completed := by
  have hdraw : (writeDraw (s.writeWP n v)).2 =
      if s.penInRange = false then .screenError s.penX s.penY else .completed := writeDraw_report _
  rcases portAction_cases n v (s.writeWP n v) with
    ⟨rfl, e⟩ | ⟨rfl, e⟩ | ⟨rfl, e⟩ | ⟨rfl, e⟩ | ⟨rfl, e⟩ | ⟨rfl, e⟩ | ⟨rfl, e⟩ | ⟨rfl, e⟩ <;>
    simp [portWrite, e, hdraw]

/-- A pending coordinate has five bits, so it is out of range exactly when it is 0. -/
theorem State.penInRange_eq_false_iff (s : State) :
    s.penInRange = false ↔ s.penX.toNat = 0 ∨ s.penY.toNat = 0 := by
  have hx := s.penX.isLt
  have hy := s.penY.isLt
  simp only [State.penInRange, decide_eq_false_iff_not]
  omega

/-- Only HLT reports Halted. -/
theorem reportOf_eq_halted_iff (i : Instr) (s : State) : reportOf i s = .halted ↔ i = .hlt := by
  cases i with
  | ptSt rv n =>
    simp only [reportOf, portWrite_report]
    split <;> simp
  | _ => simp [reportOf]

/-- Only a PT-ST to port 4 with a pending coordinate of 0 reports a screen error, and it names the pending
coordinates. -/
theorem reportOf_eq_screenError_iff (i : Instr) (s : State) (x y : Coord) :
    reportOf i s = .screenError x y ↔
      (∃ rv, i = .ptSt rv 4#3) ∧ (s.penX.toNat = 0 ∨ s.penY.toNat = 0) ∧ x = s.penX ∧ y = s.penY := by
  rw [← State.penInRange_eq_false_iff]
  cases i with
  | ptSt rv n =>
    simp only [reportOf, portWrite_report]
    split
    next h => simp [h, eq_comm]
    next h =>
      refine iff_of_false (by simp) ?_
      rintro ⟨⟨rv', e⟩, hpen, -⟩
      cases e
      exact h ⟨rfl, hpen⟩
  | _ => simp [reportOf]

/-- Settles O47: the instruction at PC reports the screen error, and a PT-ST always completes. -/
theorem onlyDroppedPixelsReportScreenError : Obligations.OnlyDroppedPixelsReportScreenError := by
  intro s x y
  constructor
  · rintro ⟨t, h⟩
    obtain ⟨i, hfetch, _, hreport⟩ := (stepOutcome_eq_reporting_iff_exec s t (.screenError x y)).1 h
    obtain ⟨⟨rv, rfl⟩, hpen⟩ := (reportOf_eq_screenError_iff i s x y).1 hreport
    exact ⟨⟨rv, hfetch⟩, hpen⟩
  · rintro ⟨⟨rv, hfetch⟩, hpen⟩
    have hreport := (reportOf_eq_screenError_iff (.ptSt rv 4#3) s x y).2 ⟨⟨rv, rfl⟩, hpen⟩
    exact ⟨_, (stepOutcome_eq_reporting_iff_exec s _ (.screenError x y)).2 ⟨_, hfetch, rfl, hreport⟩⟩

/-- A step reports Halted exactly when PC is at the word of HLT, and then leaves the state of HLT
(spec/40_cycle_system.md R176, R181). -/
theorem stepOutcome_eq_halted_iff (s t : State) :
    stepOutcome s = .halted t ↔ fetch s = some (encode .hlt) ∧ t = s.halt := by
  rw [show stepOutcome s = .halted t ↔ _ from stepOutcome_eq_reporting_iff_exec s t .halted]
  simp only [reportOf_eq_halted_iff]
  constructor
  · rintro ⟨_, hfetch, hexec, rfl⟩
    cases hexec
    exact ⟨hfetch, rfl⟩
  · rintro ⟨hfetch, rfl⟩
    exact ⟨.hlt, hfetch, exec_hlt s, rfl⟩

/-- Only HLT changes the run state (spec/10_state.md R51). -/
theorem exec_runState_of_ne_hlt {i : Instr} {s t : State} (h : exec i s = .next t) (hi : i ≠ .hlt) :
    t.runState = s.runState := by
  obtain ⟨s1, a, r, rfl, effect⟩ := exec_ownEffect h
  cases effect with
  | halt => exact absurd rfl hi
  | portStore rv n v => exact (portWrite_devicesOnly n v s).runState
  | portLoad rd n v => rcases portRead_state n s with e | e <;> rw [e] <;> rfl
  | alu | store | load | call | ret | pcOnly => rfl

/-- Settles O46: the two facts about HLT, at the instruction the step ran. -/
theorem onlyHaltHalts : Obligations.OnlyHaltHalts := by
  refine ⟨fun s => ⟨fun ⟨t, h⟩ => ?_, fun hfetch => ⟨s.halt, ?_⟩⟩, fun s t h hrun => ?_⟩
  · exact ((stepOutcome_eq_halted_iff s t).1 h).1
  · exact (stepOutcome_eq_halted_iff s s.halt).2 ⟨hfetch, rfl⟩
  · obtain ⟨i, hfetch, hexec⟩ := (step_eq_next_iff s t).1 h
    by_cases hi : i = .hlt
    · exact hi ▸ hfetch
    · exact absurd (exec_runState_of_ne_hlt hexec hi) hrun

end Sys2Proof.Machine
end

section
/-! SUPPORT. Runs of many steps: a machine at a HLT stays there, and a run that ends normally ends at a HLT
(spec/40_cycle_system.md R181, R183). -/

namespace Sys2Proof.Machine

/-- A run of one more step goes on from the next state. -/
theorem run_succ {s t : State} (h : step s = .next t) (k : Nat) : core.run (k + 1) s = core.run k t := by
  have hcore : core.step s = .next t := h
  simp only [Host.Core.run, hcore]

/-- A run that ends in a state has the program it began with (spec/10_state.md R48). -/
theorem run_imem {k : Nat} {s u : State} (h : core.run k s = .next u) : u.imem = s.imem := by
  induction k generalizing s with
  | zero => cases h; rfl
  | succ k ih =>
    cases hstep : step s with
    | next t =>
      rw [run_succ hstep] at h
      exact (ih h).trans (programIsReadOnly.1 s t hstep).1
    | fault f => simp [Host.Core.run, show core.step s = .fault f from hstep] at h
    | refused r => simp [Host.Core.run, show core.step s = .refused r from hstep] at h

/-- However often a machine at a HLT is stepped, it stays at that HLT; by induction on the steps. -/
theorem run_at_halt (k : Nat) {s : State} (h : fetch s = some (encode .hlt)) :
    ∃ t, core.run k s = .next t ∧ fetch t = some (encode .hlt) ∧ t.pc = s.pc := by
  induction k generalizing s with
  | zero => exact ⟨s, rfl, h, rfl⟩
  | succ k ih =>
    obtain ⟨t, hrun, hfetch, hpc⟩ := ih (s := s.halt) h
    exact ⟨t, (run_succ ((step_of_fetch_encode h).trans (exec_hlt s)) k).trans hrun, hfetch, hpc⟩

/-- Settles O45: the machine is still at the HLT, which halts again. -/
theorem haltRepeats : Obligations.HaltRepeats := by
  intro k s h
  obtain ⟨t, hrun, hfetch, hpc⟩ := run_at_halt k h
  exact ⟨t, t.halt, hrun, (stepOutcome_eq_halted_iff t _).2 ⟨hfetch, rfl⟩, hpc⟩

/-- What the first step of a run that ends normally does: it halts in the end state, or it completes and the rest of
the run ends there. -/
theorem runToHalt_succ {fuel : Nat} {s t : State} (h : runToHalt (fuel + 1) s = some t) :
    stepOutcome s = .halted t ∨ ∃ v, stepOutcome s = .completed v ∧ runToHalt fuel v = some t := by
  unfold runToHalt at h
  split at h
  next hs => cases h; exact .inl hs
  next v hs => exact .inr ⟨v, hs, h⟩
  all_goals cases h

/-- A run that ends normally completes step after step up to a step that reports Halted; by induction on the fuel. -/
theorem runToHalt_reaches_halt {fuel : Nat} {s t : State} (h : runToHalt fuel s = some t) :
    ∃ k u, k < fuel ∧ core.run k s = .next u ∧ stepOutcome u = .halted t ∧
      ∀ j < k, ∃ v w : State, core.run j s = .next v ∧ stepOutcome v = .completed w := by
  induction fuel generalizing s with
  | zero => cases h
  | succ fuel ih =>
    rcases runToHalt_succ h with hhalted | ⟨v, hcompleted, hrest⟩
    · exact ⟨0, s, Nat.succ_pos fuel, rfl, hhalted, fun j hj => absurd hj (Nat.not_lt_zero j)⟩
    · obtain ⟨hstep, -⟩ := (stepOutcome_eq_reporting_iff s v .completed).1 hcompleted
      obtain ⟨k, u, hk, hrun, hhalted, hbefore⟩ := ih hrest
      refine ⟨k + 1, u, Nat.succ_lt_succ hk, (run_succ hstep k).trans hrun, hhalted, fun j hj => ?_⟩
      cases j with
      | zero => exact ⟨s, v, rfl, hcompleted⟩
      | succ j =>
        rw [run_succ hstep]
        exact hbefore j (Nat.lt_of_succ_lt_succ hj)

/-- Settles O48: the run reaches a HLT with its program unchanged, and the end state is the one that HLT leaves. -/
theorem runsEndAtHlt : Obligations.RunsEndAtHlt := by
  intro fuel s t h
  obtain ⟨k, u, hk, hrun, hhalted, hbefore⟩ := runToHalt_reaches_halt h
  obtain ⟨hfetch, rfl⟩ := (stepOutcome_eq_halted_iff u t).1 hhalted
  exact ⟨k, u, hk, hrun, hhalted, u.halt_imem.trans (run_imem hrun), hfetch, u.halt_pc, u.halt_rand,
    u.halt_runState, hbefore⟩

end Sys2Proof.Machine
end

section
/-! SUPPORT. The text-level executor beside the machine (spec/40_cycle_system.md R179). -/

namespace Sys2Proof.Machine

/-- Line `k` of a program that encodes decodes to the instruction whose word is word `k`; past the lines there is no
word either (spec/30_encoding.md R142). -/
theorem encodeLines_getElem? {prog : List Line} {ws : List InstrWord} (h : encodeLines prog = .ok ws) (k : Nat) :
    (prog[k]? = none ∧ ws[k]? = none) ∨
      ∃ l i, prog[k]? = some l ∧ decodeLine l = .ok i ∧ ws[k]? = some (encode i) := by
  induction prog generalizing ws k with
  | nil => cases h; exact .inl ⟨rfl, rfl⟩
  | cons l ls ih =>
    unfold encodeLines at h
    split at h
    next => cases h
    next i hl =>
      split at h
      next ws' hls =>
        cases h
        cases k with
        | zero => exact .inr ⟨l, i, rfl, hl, rfl⟩
        | succ k => exact ih hls k
      next => cases h

/-- Settles O56: at each PC both executors are past the program, or both run the instruction of the line. -/
theorem textAndBinaryExecutorsAgree : Obligations.TextAndBinaryExecutorsAgree := by
  rintro prog _ h s rfl
  rcases encodeLines_getElem? h s.pc.toNat with ⟨hline, hword⟩ | ⟨l, i, hline, hdecode, hword⟩
  · rw [step_of_fetch_none hword]
    simp [textStep, hline, liftResult]
  · rw [step_of_fetch_encode hword]
    simp [textStep, hline, hdecode]

end Sys2Proof.Machine
end

section
/-! SUPPORT. The flags of a result, the effect every ALU-class instruction shares (spec/41_alu.md R190, R191), and the
seven instructions with it (R192 to R198, R200). -/

namespace Sys2Proof.Machine

/-! The flags of a result, read from its unsigned and from its signed value. -/

theorem deriveFlags_blt (r : Word) : (deriveFlags r).blt = r.msb := (BitVec.msb_eq_getLsbD_last r).symm

theorem deriveFlags_blt_iff (r : Word) : (deriveFlags r).blt = true ↔ 0x8000 ≤ r.toNat := by
  rw [deriveFlags_blt, BitVec.msb_eq_true_iff_two_mul_ge]
  omega

theorem deriveFlags_beq_iff (r : Word) : (deriveFlags r).beq = true ↔ r = 0#16 := decide_eq_true_iff

/-- BGT is what BEQ and BLT leave. -/
theorem deriveFlags_bgt_iff_not (r : Word) :
    (deriveFlags r).bgt = true ↔ ¬ (deriveFlags r).beq = true ∧ ¬ (deriveFlags r).blt = true := by
  simp [deriveFlags]

theorem deriveFlags_bgt_iff (r : Word) : (deriveFlags r).bgt = true ↔ 1 ≤ r.toNat ∧ r.toNat ≤ 0x7FFF := by
  rw [deriveFlags_bgt_iff_not, deriveFlags_beq_iff, deriveFlags_blt_iff, ← BitVec.toNat_inj, BitVec.toNat_ofNat]
  omega

theorem deriveFlags_blt_iff_toInt (r : Word) : (deriveFlags r).blt = true ↔ r.toInt < 0 := by
  rw [deriveFlags_blt, BitVec.msb_eq_toInt, decide_eq_true_iff]

theorem deriveFlags_bgt_iff_toInt (r : Word) : (deriveFlags r).bgt = true ↔ 0 < r.toInt := by
  rw [deriveFlags_bgt_iff_not, deriveFlags_beq_iff, deriveFlags_blt_iff_toInt, ← BitVec.toInt_inj, BitVec.toInt_zero]
  omega

/-! The shared effect. -/

/-- The state `aluResult` answers with. -/
def State.alu (s : State) (rd : RegIx) (r : Word) : State :=
  ((s.writeReg rd r).setFlags (deriveFlags r)).complete .next .completed

theorem aluResult_eq (s : State) (rd : RegIx) (r : Word) : aluResult s rd r = .next (s.alu rd r) :=
  aluResult_next s rd r

/-- That state has the whole effect of an ALU-class instruction with result `r`, and no other. -/
theorem State.alu_effect (s : State) (rd : RegIx) (r : Word) : AluEffect s (s.alu rd r) rd r where
  regs := fun i => by simp [State.alu]
  flags := rfl
  pc := State.complete_next_advanced _ _
  cells := State.complete_readCell _ _ _
  stack := State.complete_cs _ _ _
  devices := ⟨⟨rfl, ⟨rfl, rfl, rfl, rfl, rfl⟩, ⟨rfl, rfl, rfl⟩, ⟨rfl, rfl⟩⟩, rfl⟩
  host := ⟨rfl, rfl, rfl, rfl, rfl⟩
  report := rfl

/-- R0 reads 0 after every ALU-class instruction, also as its destination. -/
theorem AluEffect.readReg_zero {s t : State} {rd : RegIx} {r : Word} (h : AluEffect s t rd r) :
    t.readReg 0#5 = 0#16 :=
  (h.regs 0#5).trans (if_pos rfl)

/-- An ALU-class instruction into R0 writes no register. -/
theorem AluEffect.regsKept {s t : State} {r : Word} (h : AluEffect s t 0#5 r) : RegsKept s t := by
  intro i
  rw [h.regs i]
  by_cases hi : i = 0#5
  · rw [if_pos hi, if_pos hi]
  · rw [if_neg hi, if_neg hi, if_neg hi]

/-- Settles O15: the flags by their lemmas; each of the seven instructions into R0 answers `aluResult` of its result,
whose flags are taken before the completion clears R0. -/
theorem flagsFollowTheResult : Obligations.FlagsFollowTheResult := by
  refine ⟨fun r => ⟨deriveFlags_blt_iff r, ?_, rfl, deriveFlags_bgt_iff r⟩, fun s a b imm p hp => ?_⟩
  · rw [deriveFlags_beq_iff, ← BitVec.toNat_inj]
    rfl
  · have hexec : exec p.1 s = aluResult s 0#5 p.2 := by
      simp only [List.mem_cons, List.not_mem_nil, or_false] at hp
      rcases hp with rfl | rfl | rfl | rfl | rfl | rfl | rfl <;> rfl
    have heffect := s.alu_effect 0#5 p.2
    exact ⟨_, hexec.trans (aluResult_eq s 0#5 p.2), heffect.readReg_zero, heffect.flags⟩

/-! The instructions: the arm of each is `aluResult` at its result, so what is left to show is its word and what number
or bits the result has. -/

/-- The difference of two words is the integer difference modulo 2^16 (spec/41_alu.md R193). -/
theorem toNat_sub_eq_emod (x y : Word) : ((x - y).toNat : Int) = ((x.toNat : Int) - (y.toNat : Int)) % 2 ^ 16 := by
  rw [BitVec.toNat_sub]
  omega

/-- Settles O17: the word's difference is the integer one reduced. -/
theorem subResult : Obligations.SubResult := fun s rd rs1 rs2 =>
  ⟨encodeR3_toNat _ rd rs1 rs2, _, _, aluResult_eq s rd (s.readReg rs1 - s.readReg rs2), toNat_sub_eq_emod _ _,
    s.alu_effect rd _⟩

/-- An operand that fits passes the fault of a later one on. -/
theorem operandValues_cons_error {pos n : Nat} {k : OperandKind} {ks : List OperandKind} {o : Operand}
    {os : List Operand} {e : OperandFault} (ho : operandValue? k o = some n) (hn : n < k.bound)
    (herror : operandValues (pos + 1) ks os = .error e) : operandValues pos (k :: ks) (o :: os) = .error e := by
  simp [operandValues, ho, hn, herror]

/-- An operand of the right kind at or above the bound is the range fault of its position. -/
theorem operandValues_cons_range {pos n : Nat} {k : OperandKind} {o : Operand} (ks : List OperandKind)
    (os : List Operand) (ho : operandValue? k o = some n) (hn : k.bound ≤ n) :
    operandValues pos (k :: ks) (o :: os) = .error (.range pos) := by
  simp [operandValues, ho, Nat.not_lt.2 hn]

/-- Settles O22: both registers fit, so the immediate is the first operand at fault. -/
theorem adiResult : Obligations.AdiResult :=
  ⟨fun s rd rs imm =>
    ⟨encodeI_toNat _ rd rs imm, _, _, aluResult_eq s rd (s.readReg rs + imm), BitVec.toNat_add _ _,
      s.alu_effect rd _⟩,
    fun _ _ _ ha hb hn => (if_pos rfl).trans <|
      operandValues_cons_error rfl ha <| operandValues_cons_error rfl hb <| operandValues_cons_range [] [] rfl hn⟩

/-- A signed difference that fits the word is the signed value of the word's difference. -/
theorem toInt_sub_of_fits {x y : Word} (hlo : -32768 ≤ x.toInt - y.toInt) (hhi : x.toInt - y.toInt ≤ 32767) :
    (x - y).toInt = x.toInt - y.toInt := by
  rw [BitVec.toInt_sub]
  exact Int.bmod_eq_of_le (by omega) (by omega)

/-- Settles O42: the flags are those of the difference, and where it fits the word its sign is the signed order. -/
theorem compareIdiom : Obligations.CompareIdiom := by
  intro s ra rb
  have heffect := s.alu_effect 0#5 (s.readReg ra - s.readReg rb)
  refine ⟨_, aluResult_eq s 0#5 (s.readReg ra - s.readReg rb), heffect.regsKept, ?_, fun hlo hhi => ?_⟩ <;>
    rw [heffect.flags]
  · exact (deriveFlags_beq_iff _).trans sub_eq_zero
  · rw [deriveFlags_blt_iff_toInt, deriveFlags_bgt_iff_toInt, toInt_sub_of_fits hlo hhi]
    exact ⟨sub_neg, sub_pos⟩

/-- Settles O16: the word's sum is the sum reduced modulo 2^16. -/
theorem addResult : Obligations.AddResult := fun s rd rs1 rs2 =>
  ⟨encodeR3_toNat _ rd rs1 rs2, _, _, aluResult_eq s rd (s.readReg rs1 + s.readReg rs2), BitVec.toNat_add _ _,
    s.alu_effect rd _⟩

/-- Settles O18: bit by bit. -/
theorem xorResult : Obligations.XorResult := fun s rd rs1 rs2 =>
  ⟨encodeR3_toNat _ rd rs1 rs2, _, _, aluResult_eq s rd (s.readReg rs1 ^^^ s.readReg rs2),
    fun _ => BitVec.getLsbD_xor, s.alu_effect rd _⟩

/-- Settles O19: bit by bit. -/
theorem orResult : Obligations.OrResult := fun s rd rs1 rs2 =>
  ⟨encodeR3_toNat _ rd rs1 rs2, _, _, aluResult_eq s rd (s.readReg rs1 ||| s.readReg rs2),
    fun _ => BitVec.getLsbD_or, s.alu_effect rd _⟩

/-- Settles O20: bit by bit. -/
theorem andResult : Obligations.AndResult := fun s rd rs1 rs2 =>
  ⟨encodeR3_toNat _ rd rs1 rs2, _, _, aluResult_eq s rd (s.readReg rs1 &&& s.readReg rs2),
    fun _ => BitVec.getLsbD_and, s.alu_effect rd _⟩

/-- Settles O21: a logical shift by one is half the value, rounded down. -/
theorem rshResult : Obligations.RshResult := fun s rd rs =>
  ⟨encodeR2_toNat _ rd rs, _, _, aluResult_eq s rd (s.readReg rs >>> 1),
    (BitVec.toNat_ushiftRight _ _).trans (Nat.shiftRight_one _),
    s.alu_effect rd _⟩

end Sys2Proof.Machine
end

section
/-! SUPPORT. ST and LD at an address that names a cell (spec/42_load_store.md R210, R211). -/

namespace Sys2Proof.Machine

/-- `s` with other registers and another data memory: what ST and LD hand to the completion is of this form. -/
def State.withData (s : State) (x : Vector Word 32) (m : Memory) : State := { s with x := x, dmem := m }

theorem State.writeCell_eq_withData (s : State) (a : Nat) (v : Word) :
    s.writeCell a v = s.withData s.x (Memory.write s.dmem a v) := rfl

theorem State.writeReg_eq_withData (s : State) (i : RegIx) (v : Word) :
    s.writeReg i v = s.withData (s.x.set i.toNat v i.isLt) s.dmem := rfl

/-- An instruction that writes only registers and data memory, then advances, leaves everything else as
spec/40_cycle_system.md R175 says. -/
theorem State.complete_frame_of_withData {s s1 t : State} {x : Vector Word 32} {m : Memory} (h : s1 = s.withData x m)
    (ht : t = s1.complete .next .completed) :
    t.flags = s.flags ∧ Advanced s t ∧ StackKept s t ∧ SameDevices s t ∧ SameHost s t ∧ t.report = .completed := by
  subst h ht
  obtain ⟨⟨hwp, hscreen, hmarquee, hnumber⟩, hbuttons⟩ := (s.withData x m).complete_sameDevices .next .completed
  have hhost := (s.withData x m).complete_sameHost .next .completed
  exact ⟨rfl, State.complete_next_advanced _ _, State.complete_cs _ _ _,
    ⟨⟨hwp, { hscreen with }, { hmarquee with }, { hnumber with }⟩, hbuttons⟩, { hhost with }, rfl⟩

/-- Settles O23: the completed store reads cell by cell as the write, then the forcing of D0. -/
theorem storeResult : Obligations.StoreResult := by
  intro s rv rb off hea
  refine ⟨rfl, _, exec_st_eq_next rv hea, fun a => ?_, State.complete_readReg _ _ _,
    State.complete_frame_of_withData (s.writeCell_eq_withData _ _) rfl⟩
  rw [State.complete_readCell, State.readCell_writeCell]
  rfl

/-- Settles O24: the completed load reads register by register as the write, then the forcing of R0. -/
theorem loadResult : Obligations.LoadResult := by
  intro s rd rb off hea
  refine ⟨_, exec_ld_eq_next rd hea, fun i => ?_, State.complete_readCell _ _ _,
    State.complete_frame_of_withData (s.writeReg_eq_withData _ _) rfl⟩
  rw [State.complete_readReg, State.readReg_writeReg]

end Sys2Proof.Machine
end

section
/-! SUPPORT. PT-ST and PT-LD: what each leaves whatever its port, the devices each group of ports leaves alone, and the
values the ports take from a word and give as one (spec/43_ports.md R220 to R245). -/

namespace Sys2Proof.Machine

/-! The bits and the fields of a value, as numbers. -/

theorem bitOf_eq_decide (v : Word) (i : Nat) : bitOf v i = decide (v.toNat / 2 ^ i % 2 = 1) :=
  (BitVec.testBit_toNat v).symm.trans Nat.testBit_eq_decide_div_mod_eq

theorem extractLsb'_toNat_eq_div_mod (v : Word) (lo n : Nat) :
    (v.extractLsb' lo n).toNat = v.toNat / 2 ^ lo % 2 ^ n := by
  rw [BitVec.extractLsb'_toNat, Nat.shiftRight_eq_div_pow]

theorem extractLsb'_zero_toNat (v : Word) (n : Nat) : (v.extractLsb' 0 n).toNat = v.toNat % 2 ^ n := by
  rw [extractLsb'_toNat_eq_div_mod, pow_zero, Nat.div_one]

theorem charCodeOf_toNat (v : Word) : (charCodeOf v).toNat = v.toNat % 32 := extractLsb'_zero_toNat v 5

/-- The two pen fields, bits 4 to 0 and bits 9 to 5, under either layout (R235). -/
theorem penXOf_toNat (l : XYLayout) (v : Word) :
    (l = .xHigh → (penXOf l v).toNat = v.toNat / 32 % 32) ∧ (l = .xLow → (penXOf l v).toNat = v.toNat % 32) :=
  ⟨fun h => h ▸ extractLsb'_toNat_eq_div_mod v 5 5, fun h => h ▸ extractLsb'_zero_toNat v 5⟩

theorem penYOf_toNat (l : XYLayout) (v : Word) :
    (l = .xHigh → (penYOf l v).toNat = v.toNat % 32) ∧ (l = .xLow → (penYOf l v).toNat = v.toNat / 32 % 32) :=
  ⟨fun h => h ▸ extractLsb'_zero_toNat v 5, fun h => h ▸ extractLsb'_toNat_eq_div_mod v 5 5⟩

/-- The number of a port-2 write by arithmetic on the value (R234). -/
theorem magnitudeOf_eq (v : Word) : magnitudeOf v =
    if v.toNat / 512 % 2 = 1 ∧ 128 ≤ v.toNat % 256 then ((v.toNat % 256 : Nat) : Int) - 256
    else ((v.toNat % 256 : Nat) : Int) := by
  simp only [magnitudeOf, extractLsb'_zero_toNat, bitOf_eq_decide, Bool.and_eq_true, decide_eq_true_eq, Nat.reducePow,
    Nat.ofNat_le_cast]

/-- What a port-2 write shows by arithmetic on the value (R233, R234). -/
theorem numShownOf_eq (v : Word) : numShownOf v =
    if v.toNat / 256 % 2 = 0 then .blank
    else if v.toNat / 512 % 2 = 1 ∧ 128 ≤ v.toNat % 256 then .shown (((v.toNat % 256 : Nat) : Int) - 256)
    else .shown ((v.toNat % 256 : Nat) : Int) := by
  have henable : bitOf v 8 = true ↔ ¬ v.toNat / 256 % 2 = 0 := by
    rw [bitOf_eq_decide, decide_eq_true_iff]
    exact Nat.mod_two_ne_zero.symm
  simp only [numShownOf, henable, ite_not, magnitudeOf_eq, apply_ite NumShown.shown]

/-! The marquee (R230 to R232). -/

theorem nextCursor_val : ∀ c : Fin 11, (nextCursor c).val = (c.val + 1) % 11 := by decide

/-- Appending a code puts it at the cursor and nowhere else. -/
theorem State.appendMarquee_getElem (s : State) (c : CharCode) (j : Fin 11) :
    (s.appendMarquee c).mqStage[j] = if j = s.mqCursor then c else s.mqStage[j] := by
  simp only [State.appendMarquee_mqStage, Fin.getElem_fin, Vector.getElem_set, Fin.ext_iff, eq_comm]

theorem writeMarqueeControl_of_neither {v : Word} {s : State} (h15 : bitOf v 15 = false) (h14 : bitOf v 14 = false) :
    writeMarqueeControl v s = s := by
  simp [writeMarqueeControl, h15, h14]

theorem writeMarqueeControl_of_commit {v : Word} {s : State} (h15 : bitOf v 15 = true) (h14 : bitOf v 14 = false) :
    writeMarqueeControl v s = s.commitMarquee := by
  simp [writeMarqueeControl, h15, h14]

theorem writeMarqueeControl_of_clear {v : Word} {s : State} (h15 : bitOf v 15 = false) (h14 : bitOf v 14 = true) :
    writeMarqueeControl v s = s.clearMarquee := by
  simp [writeMarqueeControl, h15, h14]

theorem writeMarqueeControl_of_both {v : Word} {s : State} (h15 : bitOf v 15 = true) (h14 : bitOf v 14 = true) :
    writeMarqueeControl v s = marqueeBoth (Config.marqueeOrderDraw s.drawCount) s := by
  simp [writeMarqueeControl, h15, h14]

/-! PT-ST. -/

theorem DevicesOnly.readReg {s t : State} (d : DevicesOnly s t) (i : RegIx) : t.readReg i = s.readReg i := by
  simp only [State.readReg, d.x]

theorem DevicesOnly.readCell {s t : State} (d : DevicesOnly s t) (a : Nat) : t.readCell a = s.readCell a := by
  simp only [State.readCell, d.dmem]

/-- The state a PT-ST leaves. -/
def State.portStore (s : State) (rv : RegIx) (n : PortIx) : State :=
  (portWrite n (s.readReg rv) s).1.complete .next (portWrite n (s.readReg rv) s).2

/-- PT-ST always completes, with that state. -/
theorem exec_ptSt (s : State) (rv : RegIx) (n : PortIx) : exec (.ptSt rv n) s = .next (s.portStore rv n) := rfl

/-- That state has the whole effect every PT-ST has (R220, R221): a port write changes only devices, and its register
takes the value. -/
theorem State.portStore_effect (s : State) (rv : RegIx) (n : PortIx) :
    PtStEffect s (s.portStore rv n) n (s.readReg rv) := by
  have d := portWrite_devicesOnly n (s.readReg rv) s
  exact {
    ports := portWrite_readWP n (s.readReg rv) s
    regs := fun i => by rw [State.portStore, State.complete_readReg, d.readReg]
    flags := d.flags
    pc := (State.complete_next_advanced _ _).trans (by rw [d.pc])
    cells := fun a => by rw [State.portStore, State.complete_readCell, d.readCell]
    stack := (State.complete_cs _ _ _).trans (congrArg last16 d.cs)
    buttons := d.buttons
    host := ⟨d.imem, d.source, d.runState, d.stopRequested, d.speed⟩ }

/-- What a PT-ST leaves, by what its port write gives. -/
theorem State.portStore_of_portWrite {s d : State} {rv : RegIx} {n : PortIx} {r : Report}
    (h : portWrite n (s.readReg rv) s = (d, r)) : s.portStore rv n = d.complete .next r := by
  rw [State.portStore, h]

theorem portWrite_control (v : Word) (s : State) :
    portWrite 0#3 v s = (writeMarqueeControl v (s.writeWP 0#3 v), .completed) := rfl

theorem portWrite_draw_of_inRange {v : Word} {s : State} (h : s.penInRange = true) :
    portWrite 4#3 v s = ((s.writeWP 4#3 v).drawPixel, .completed) := if_pos h

theorem portWrite_draw_of_outOfRange {v : Word} {s : State} (h : s.penInRange = false) :
    portWrite 4#3 v s = (s.writeWP 4#3 v, .screenError s.penX s.penY) :=
  if_neg (ne_true_of_eq_false h)

/-- Marquee control leaves the numeric display alone (R230, R231). -/
theorem writeMarqueeControl_sameNumber (v : Word) (s : State) : SameNumber s (writeMarqueeControl v s) := by
  rcases writeMarqueeControl_cases v s with e | e | e | e | e <;> rw [e] <;> constructor <;> rfl

/-- The marquee ports, 0 and 1, leave the screen and the numeric display alone. -/
theorem State.portStore_marquee_frame (s : State) (rv : RegIx) {n : PortIx} (hn : n = 0#3 ∨ n = 1#3) :
    SameScreen s (s.portStore rv n) ∧ SameNumber s (s.portStore rv n) := by
  rcases hn with rfl | rfl
  · have hscreen := writeMarqueeControl_sameScreen (s.readReg rv) (s.writeWP 0#3 (s.readReg rv))
    have hnumber := writeMarqueeControl_sameNumber (s.readReg rv) (s.writeWP 0#3 (s.readReg rv))
    exact ⟨{ hscreen with }, { hnumber with }⟩
  · exact ⟨⟨rfl, rfl, rfl, rfl, rfl⟩, ⟨rfl, rfl⟩⟩

/-- The numeric port, 2, leaves the screen and the marquee alone. -/
theorem State.portStore_number_frame (s : State) (rv : RegIx) :
    SameScreen s (s.portStore rv 2#3) ∧ SameMarquee s (s.portStore rv 2#3) :=
  ⟨⟨rfl, rfl, rfl, rfl, rfl⟩, ⟨rfl, rfl, rfl⟩⟩

/-- The screen ports, 3 to 7, leave the marquee and the numeric display alone. -/
theorem State.portStore_screen_frame (s : State) (rv : RegIx) {n : PortIx} (hn : 3 ≤ n.toNat) :
    SameMarquee s (s.portStore rv n) ∧ SameNumber s (s.portStore rv n) := by
  have hports : n = 4#3 ∨ n = 3#3 ∨ n = 5#3 ∨ n = 6#3 ∨ n = 7#3 := by bv_omega
  rcases hports with rfl | rfl | rfl | rfl | rfl
  · cases hpen : s.penInRange with
    | true =>
      rw [State.portStore_of_portWrite (portWrite_draw_of_inRange hpen)]
      exact ⟨⟨rfl, rfl, rfl⟩, ⟨rfl, rfl⟩⟩
    | false =>
      rw [State.portStore_of_portWrite (portWrite_draw_of_outOfRange hpen)]
      exact ⟨⟨rfl, rfl, rfl⟩, ⟨rfl, rfl⟩⟩
  all_goals exact ⟨⟨rfl, rfl, rfl⟩, ⟨rfl, rfl⟩⟩

/-- Settles O26: the two bits choose between committing, clearing and neither. -/
theorem marqueeControlResult : Obligations.MarqueeControlResult := by
  intro s rv hnot
  obtain ⟨hscreen, hnumber⟩ := s.portStore_marquee_frame rv (.inl rfl)
  have hcontrol := portWrite_control (s.readReg rv) s
  refine ⟨_, exec_ptSt s rv 0#3, s.portStore_effect rv 0#3, hscreen, hnumber, rfl, rfl, fun h15 => ?commit,
    fun h14 => ?clear, fun h15 h14 => ?neither⟩
  case commit =>
    rw [writeMarqueeControl_of_commit h15 (Bool.eq_false_iff.2 fun h14 => hnot ⟨h15, h14⟩)] at hcontrol
    rw [State.portStore_of_portWrite hcontrol]
    exact ⟨rfl, rfl, rfl⟩
  case clear =>
    rw [writeMarqueeControl_of_clear (Bool.eq_false_iff.2 fun h15 => hnot ⟨h15, h14⟩) h14] at hcontrol
    rw [State.portStore_of_portWrite hcontrol]
    exact ⟨rfl, Marquee.blank_getElem, rfl⟩
  case neither =>
    rw [writeMarqueeControl_of_neither h15 h14] at hcontrol
    rw [State.portStore_of_portWrite hcontrol]
    exact ⟨rfl, rfl, rfl⟩

/-- Settles O27: both orders blank the staging buffer, and only the shown string depends on the order. -/
theorem marqueeBothBitsResult : Obligations.MarqueeBothBitsResult := by
  intro s rv h15 h14
  obtain ⟨hscreen, hnumber⟩ := s.portStore_marquee_frame rv (.inl rfl)
  refine ⟨_, exec_ptSt s rv 0#3, s.portStore_effect rv 0#3, hscreen, hnumber, rfl, ?_⟩
  have hcontrol := portWrite_control (s.readReg rv) s
  rw [writeMarqueeControl_of_both h15 h14, State.writeWP_drawCount] at hcontrol
  cases ho : Config.marqueeOrderDraw s.drawCount with
  | commitFirst =>
    rw [State.portStore_of_portWrite (ho ▸ hcontrol)]
    exact ⟨Marquee.blank_getElem, rfl, fun _ => rfl, nofun⟩
  | clearFirst =>
    rw [State.portStore_of_portWrite (ho ▸ hcontrol)]
    exact ⟨Marquee.blank_getElem, rfl, nofun, fun _ => Marquee.blank_getElem⟩

/-- Settles O28: the code goes in at the cursor, and the cursor moves on. -/
theorem marqueeCharacterResult : Obligations.MarqueeCharacterResult := by
  intro s rv
  obtain ⟨hscreen, hnumber⟩ := s.portStore_marquee_frame rv (.inr rfl)
  refine ⟨_, exec_ptSt s rv 1#3, s.portStore_effect rv 1#3, hscreen, hnumber, rfl, rfl, fun j => ?_,
    nextCursor_val s.mqCursor⟩
  have hstage := (s.writeWP 1#3 (s.readReg rv)).appendMarquee_getElem (charCodeOf (s.readReg rv)) j
  have hnat := (congrArg BitVec.toNat hstage).trans (apply_ite BitVec.toNat _ _ _)
  rwa [charCodeOf_toNat] at hnat

/-- Settles O29: the display and its debug value are those of the value stored. -/
theorem numericDisplayResult : Obligations.NumericDisplayResult := by
  intro s rv
  obtain ⟨hscreen, hmarquee⟩ := s.portStore_number_frame rv
  exact ⟨_, exec_ptSt s rv 2#3, s.portStore_effect rv 2#3, hscreen, hmarquee, rfl, rfl, numShownOf_eq (s.readReg rv)⟩

/-- Settles O30: the pending coordinates are the two fields of the value, in the layout's order. -/
theorem penResult : Obligations.PenResult := by
  intro s rv
  obtain ⟨hmarquee, hnumber⟩ := s.portStore_screen_frame rv (n := 3#3) (by decide)
  obtain ⟨hxHigh, hxLow⟩ := penXOf_toNat Config.xyLayout (s.readReg rv)
  obtain ⟨hyHigh, hyLow⟩ := penYOf_toNat Config.xyLayout (s.readReg rv)
  exact ⟨_, exec_ptSt s rv 3#3, s.portStore_effect rv 3#3, hmarquee, hnumber, rfl, rfl, rfl, rfl,
    fun h => ⟨hxHigh h, hyHigh h⟩, fun h => ⟨hxLow h, hyLow h⟩⟩

/-- Settles O31: both coordinates are in range, so the pixel they name, and no other, takes the latch. -/
theorem drawResult : Obligations.DrawResult := by
  intro s rv hx hy
  have hpen : s.penInRange = true := by
    rw [← Bool.not_eq_false, State.penInRange_eq_false_iff]
    omega
  obtain ⟨hmarquee, hnumber⟩ := s.portStore_screen_frame rv (n := 4#3) (by decide)
  refine ⟨_, exec_ptSt s rv 4#3, s.portStore_effect rv 4#3, hmarquee, hnumber, ?_⟩
  rw [State.portStore_of_portWrite (portWrite_draw_of_inRange hpen)]
  exact ⟨rfl, rfl, rfl, rfl, rfl, fun row col hrow hcol =>
    Screen.pixel_setPixel s.pixBack _ _ row col s.pixLatch (Nat.sub_lt (by decide) hy) (Nat.sub_lt (by decide) hx) hrow
      hcol⟩

/-- Settles O32: the port register is written, the pixel is dropped and the report names the coordinates. -/
theorem drawOutOfRangeResult : Obligations.DrawOutOfRangeResult := by
  intro s rv hzero
  have hpen : s.penInRange = false := s.penInRange_eq_false_iff.2 hzero
  have hstore := State.portStore_of_portWrite (portWrite_draw_of_outOfRange (v := s.readReg rv) hpen)
  obtain ⟨hmarquee, hnumber⟩ := s.portStore_screen_frame rv (n := 4#3) (by decide)
  refine ⟨_, exec_ptSt s rv 4#3, s.portStore_effect rv 4#3, ?_, hmarquee, hnumber, ?_⟩ <;> rw [hstore]
  · exact ⟨rfl, rfl, rfl, rfl, rfl⟩
  · rfl

/-- Settles O33: each of the three ports by its device update. -/
theorem latchFillCommitResult : Obligations.LatchFillCommitResult := by
  intro s rv
  obtain ⟨hmarquee5, hnumber5⟩ := s.portStore_screen_frame rv (n := 5#3) (by decide)
  obtain ⟨hmarquee6, hnumber6⟩ := s.portStore_screen_frame rv (n := 6#3) (by decide)
  obtain ⟨hmarquee7, hnumber7⟩ := s.portStore_screen_frame rv (n := 7#3) (by decide)
  have hlatch : bitOf (s.readReg rv) 0 = true ↔ (s.readReg rv).toNat % 2 = 1 := by
    rw [bitOf_eq_decide, decide_eq_true_iff, pow_zero, Nat.div_one]
  exact ⟨⟨_, exec_ptSt s rv 5#3, s.portStore_effect rv 5#3, hmarquee5, hnumber5, rfl, rfl, rfl, rfl, rfl, hlatch⟩,
    ⟨_, exec_ptSt s rv 6#3, s.portStore_effect rv 6#3, hmarquee6, hnumber6, rfl, rfl, rfl, rfl, rfl,
      Screen.pixel_fill s.pixLatch⟩,
    ⟨_, exec_ptSt s rv 7#3, s.portStore_effect rv 7#3, hmarquee7, hnumber7, rfl, rfl, rfl, rfl, rfl, rfl,
      fun _ _ _ _ => rfl⟩⟩

/-! PT-LD. -/

/-- The state a PT-LD leaves. -/
def State.portLoad (s : State) (rd : RegIx) (n : PortIx) : State :=
  ((portRead n s).2.writeReg rd (portRead n s).1).complete .next .completed

/-- PT-LD always completes, with that state. -/
theorem exec_ptLd (s : State) (rd : RegIx) (n : PortIx) : exec (.ptLd rd n) s = .next (s.portLoad rd n) := rfl

/-- That state has the whole effect every PT-LD has (R245): reading a port changes nothing but the controller. -/
theorem State.portLoad_effect (s : State) (rd : RegIx) (n : PortIx) :
    PtLdEffect s (s.portLoad rd n) rd (portRead n s).1 := by
  have hread := portRead_state n s
  unfold State.portLoad
  generalize (portRead n s).1 = v at *
  generalize (portRead n s).2 = s1 at *
  have hregs : RegsSet s1 ((s1.writeReg rd v).complete .next .completed) rd v := fun i => by
    rw [State.complete_readReg, State.readReg_writeReg]
  rcases hread with rfl | rfl <;>
    exact ⟨hregs, rfl, State.complete_next_advanced _ _, State.complete_readCell _ _ _, State.complete_cs _ _ _,
      ⟨rfl, ⟨rfl, rfl, rfl, rfl, rfl⟩, ⟨rfl, rfl, rfl⟩, ⟨rfl, rfl⟩⟩, ⟨rfl, rfl, rfl, rfl, rfl⟩, rfl⟩

/-- The eight buttons in the order of R241, least significant bit first. -/
def Buttons.toList (b : Buttons) : List Bool := [b.up, b.right, b.down, b.left, b.select, b.start, b.y, b.x]

/-- The controller packing is the bit vector of that list. -/
theorem packButtons_eq_ofBoolListLE (b : Buttons) : packButtons b = (BitVec.ofBoolListLE b.toList).setWidth 16 := by
  apply BitVec.eq_of_toNat_eq
  simp only [packButtons, Buttons.toList, BitVec.ofBoolListLE, BitVec.toNat_setWidth, BitVec.toNat_concat,
    BitVec.toNat_ofNat, List.length_nil]
  omega

/-- The bits of the controller packing are the buttons, and all above are 0. -/
theorem packButtons_getLsbD (b : Buttons) (k : Nat) : (packButtons b).getLsbD k = b.toList.getD k false := by
  rw [packButtons_eq_ofBoolListLE, BitVec.getLsbD_setWidth, BitVec.getLsbD_ofBoolListLE]
  rcases Nat.lt_or_ge k 16 with hk | hk
  · rw [decide_eq_true hk, Bool.true_and]
  · have hlen : b.toList.length ≤ k := Nat.le_trans (by decide : 8 ≤ 16) hk
    rw [decide_eq_false (Nat.not_lt.2 hk), Bool.false_and, List.getD_eq_default _ _ hlen]

/-- Settles O34: the value is the packing of the buttons before the read, which consumes the momentary ones. -/
theorem controllerReadResult : Obligations.ControllerReadResult := fun s rd =>
  ⟨_, _, exec_ptLd s rd 0#3, s.portLoad_effect rd 0#3, packButtons_getLsbD s.buttons, rfl⟩

/-- Settles O35: ports 1 to 7 give a value and touch nothing. -/
theorem noiseAndUnusedReadResult : Obligations.NoiseAndUnusedReadResult := by
  refine fun s rd => ⟨⟨_, exec_ptLd s rd 1#3, s.portLoad_effect rd 1#3, rfl, rfl⟩, fun n hn => ?_⟩
  have hread : portRead n s = (0#16, s) := by
    rcases portRead_cases n s with ⟨rfl, -⟩ | ⟨rfl, -⟩ | ⟨-, -, e⟩
    · exact absurd hn (by decide)
    · exact absurd hn (by decide)
    · exact e
  have heffect := s.portLoad_effect rd n
  rw [hread] at heffect
  refine ⟨_, exec_ptLd s rd n, heffect, ?_⟩
  rw [State.portLoad, hread]
  rfl

end Sys2Proof.Machine
end

section
/-! SUPPORT. JMP, CAL, RET and the branches: each hands the completion the old state with, at most, another call stack
(spec/44_control.md R260 to R266). -/

namespace Sys2Proof.Machine

/-- The state a control transfer leaves: the completion, with PC action `a`, of `s` with the call stack `cs`. -/
def State.transfer (s : State) (cs : List Word) (a : PcAction) : State := { s with cs := cs }.complete a .completed

@[simp] theorem State.transfer_pc (s : State) (cs : List Word) (a : PcAction) :
    (s.transfer cs a).pc = a.apply s.pc := rfl
@[simp] theorem State.transfer_cs (s : State) (cs : List Word) (a : PcAction) : (s.transfer cs a).cs = last16 cs :=
  State.complete_cs { s with cs := cs } a .completed
@[simp] theorem State.transfer_imem (s : State) (cs : List Word) (a : PcAction) : (s.transfer cs a).imem = s.imem := rfl
@[simp] theorem State.transfer_rand (s : State) (cs : List Word) (a : PcAction) :
    (s.transfer cs a).rand = Config.randDraw s.drawCount := rfl

theorem State.transfer_jump_pc_toNat (s : State) (cs : List Word) (a : Addr) :
    (s.transfer cs (.jump (targetOf a))).pc.toNat = a.toNat := by
  rw [State.transfer_pc, PcAction.apply, targetOf_toNat]

/-- A control transfer leaves everything but PC and the call stack. -/
theorem State.transfer_effect (s : State) (cs : List Word) (a : PcAction) : ControlEffect s (s.transfer cs a) where
  regs := State.complete_readReg { s with cs := cs } a .completed
  flags := rfl
  cells := State.complete_readCell { s with cs := cs } a .completed
  devices := ⟨⟨rfl, ⟨rfl, rfl, rfl, rfl, rfl⟩, ⟨rfl, rfl, rfl⟩, ⟨rfl, rfl⟩⟩, rfl⟩
  host := ⟨rfl, rfl, rfl, rfl, rfl⟩
  report := rfl

/-! Each instruction is the transfer of its own call stack and PC action. -/

theorem exec_jmp (a : Addr) (s : State) : exec (.jmp a) s = .next (s.transfer s.cs (.jump (targetOf a))) := rfl

theorem exec_cal (a : Addr) (s : State) :
    exec (.cal a) s = .next (s.transfer (s.cs ++ [s.pc + 1#16]) (.jump (targetOf a))) := rfl

theorem branchIf_eq (taken : Bool) (a : Addr) (s : State) :
    branchIf taken a s = .next (s.transfer s.cs (if taken then .jump (targetOf a) else .next)) := rfl

/-- RET on a non-empty call stack jumps to its last entry. -/
theorem exec_ret_of_cs {s : State} {cs : List Word} {ra : Word} (h : s.cs = cs ++ [ra]) :
    exec .ret s = .next (s.transfer cs (.jump ra)) := by
  have htop : s.top? = some ra := by rw [State.top?, h, List.getLast?_concat]
  have hdrop : s.dropTop = { s with cs := cs } := by rw [State.dropTop, h, List.dropLast_concat]
  simp only [exec, execRet, htop, hdrop]
  rfl

/-- A jump to or past the end of the program makes the next step an overrun (spec/40_cycle_system.md R171). -/
theorem step_transfer_of_target_past {s : State} {a : Addr} (cs : List Word) (h : s.imem.length ≤ a.toNat) :
    step (s.transfer cs (.jump (targetOf a))) = .fault (.overrun (s.transfer cs (.jump (targetOf a))).pc) := by
  apply step_of_fetch_none
  rw [fetch, s.transfer_jump_pc_toNat, State.transfer_imem]
  exact List.getElem?_eq_none h

/-- Settles O36. -/
theorem jumpResult : Obligations.JumpResult := fun s a =>
  ⟨encodeJ_toNat _ a, _, exec_jmp a s, s.transfer_jump_pc_toNat _ a, s.transfer_cs _ _, s.transfer_effect _ _,
    s.transfer_rand _ _, step_transfer_of_target_past s.cs,
    fun hself => BitVec.eq_of_toNat_eq ((s.transfer_jump_pc_toNat s.cs a).trans hself.symm)⟩

/-- Settles O37: the cut of the old stack with the return address at its end. -/
theorem callResult : Obligations.CallResult := fun s a =>
  ⟨_, s.pc + 1#16, exec_cal a s, s.transfer_jump_pc_toNat _ a, BitVec.toNat_add _ _,
    by simp [last16, Config.stackDepth], s.transfer_effect _ _⟩

/-- Settles O38: a stack with a last entry is popped, and only the empty one faults. -/
theorem returnResult : Obligations.ReturnResult :=
  ⟨fun s _ _ h => ⟨_, exec_ret_of_cs h, s.transfer_pc _ _, s.transfer_cs _ _, s.transfer_effect _ _⟩,
    fun s h => (exec_ret_eq_fault_iff s _).2 ⟨h, rfl⟩⟩

/-- Settles O39: each branch is `branchIf` of its own flag. -/
theorem branchResult : Obligations.BranchResult := by
  intro s a p hp
  have hexec : exec p.1 s = branchIf p.2 a s := by
    simp only [List.mem_cons, List.not_mem_nil, or_false] at hp
    rcases hp with rfl | rfl | rfl | rfl <;> rfl
  refine ⟨_, hexec.trans (branchIf_eq p.2 a s), fun htaken => ?_, fun hnot => ?_, s.transfer_cs _ _,
    s.transfer_effect _ _⟩
  · rw [if_pos htaken]
    exact s.transfer_jump_pc_toNat _ a
  · rw [hnot]
    exact State.complete_next_advanced _ _

/-- After a push the cut leaves the pushed entry and the most recent 15 below it. -/
theorem last16_concat (cs : List Word) (v : Word) : last16 (cs ++ [v]) = cs.drop (cs.length - 15) ++ [v] := by
  have hlen : (cs ++ [v]).length - Config.stackDepth = cs.length - 15 := by
    simp [Config.stackDepth]
  rw [last16, hlen, List.drop_append_of_le_length (Nat.sub_le _ _)]

/-- Settles O40: the RET finds the CAL's return address last, above at most 15 entries, which it does not cut. -/
theorem callThenReturn : Obligations.CallThenReturn := by
  intro s a
  have hret := exec_ret_of_cs (s := s.transfer (s.cs ++ [s.pc + 1#16]) (.jump (targetOf a)))
    (last16_concat s.cs (s.pc + 1#16))
  have hlen : (s.cs.drop (s.cs.length - 15)).length ≤ Config.stackDepth := by
    rw [List.length_drop, Config.stackDepth]
    omega
  exact ⟨_, _, exec_cal a s, hret, BitVec.toNat_add _ _, (State.transfer_cs _ _ _).trans (last16_of_le hlen)⟩

end Sys2Proof.Machine
end

section
/-! SUPPORT. The host's boundary: when a step is an overrun, what a host step and an iteration of the run loop leave by
the outcome of their step, and the commands that only set something (spec/60_exceptions.md R280 to R309). -/

namespace Sys2Proof.Machine

/-- No instruction overruns: an overrun is a fault of the fetch alone (spec/40_cycle_system.md R171). -/
theorem exec_ne_overrun (i : Instr) (s : State) (pc : Word) : exec i s ≠ .fault (.overrun pc) := by
  intro h
  have hfaults := ((onlyThreeInstructionsFault i s).2 _).1 h
  rcases hfaults with ⟨_, _, _, _, _, hf⟩ | ⟨_, _, _, _, _, hf⟩ | ⟨_, _, hf⟩ <;> cases hf

/-- A step is an overrun exactly when PC is at or past the program length, and it names PC. -/
theorem step_eq_overrun_iff (s : State) (pc : Word) :
    step s = .fault (.overrun pc) ↔ s.imem.length ≤ s.pc.toNat ∧ pc = s.pc := by
  constructor
  · intro h
    rcases step_cases s with ⟨hfetch, hstep⟩ | ⟨_, e, _, _, hstep⟩ | ⟨_, i, _, _, hstep⟩ <;> rw [hstep] at h
    · cases h
      exact ⟨List.getElem?_eq_none_iff.1 hfetch, rfl⟩
    · cases e <;> cases h
    · exact absurd h (exec_ne_overrun i s pc)
  · rintro ⟨hpc, rfl⟩
    exact stepStopsAtFetchAndDecode.1 s hpc

/-- The host is handed an overrun exactly when the step is one. -/
theorem stepOutcome_eq_overrun_iff_step (s : State) (pc : Word) :
    stepOutcome s = .overrun pc ↔ step s = .fault (.overrun pc) := by
  unfold stepOutcome
  split
  next t hstep =>
    rw [hstep, outcomeOfNext_eq_reporting]
    cases t.report <;> simp [StepOutcome.reporting]
  next hstep => simp [hstep]
  next f hf hstep => simpa [hstep] using hf pc
  next hstep => simp [hstep]

/-- A host step leaves what the outcome of its step determines. -/
theorem hostStep_of_outcome {s : State} {o : StepOutcome} (h : stepOutcome s = o) :
    (hostStep s).1 = afterOutcome s o := by
  rw [hostStep, h]

/-- A completed step outside a run leaves Idle, from Halted too. -/
theorem afterCompleted_of_not_running {r : RunState} (h : r ≠ .running) : afterCompleted r = .idle := by
  cases r with
  | running => exact absurd rfl h
  | idle | halted => rfl

/-- A completed step leaves a run going. -/
theorem afterOutcome_completed_of_running {s : State} (h : s.runState = .running) (t : State) :
    afterOutcome s (.completed t) = t.setRunState .running := by
  rw [afterOutcome, h, afterCompleted]

theorem afterOutcome_completed_of_not_running {s : State} (h : s.runState ≠ .running) (t : State) :
    afterOutcome s (.completed t) = t.setRunState .idle := by
  rw [afterOutcome, afterCompleted_of_not_running h]

/-- A requested stop ends the run before the next instruction (spec/60_exceptions.md R303). -/
theorem tick_of_stop {s : State} (hrun : s.runState = .running) (hstop : s.stopRequested = true) :
    (tick s).1 = s.setRunState .idle := by
  simp [tick, hrun, hstop]

/-- Without one, an iteration of the run loop is a host step (spec/60_exceptions.md R302). -/
theorem tick_of_outcome {s : State} {o : StepOutcome} (hrun : s.runState = .running)
    (hstop : s.stopRequested = false) (h : stepOutcome s = o) : (tick s).1 = afterOutcome s o := by
  rw [← hostStep_of_outcome h]
  simp [tick, hrun, hstop]

/-- Settles O53: an error is left by the state it was taken at, and an overrun is one of the fetch. -/
theorem errorsLeaveTheStateUnchanged : Obligations.ErrorsLeaveTheStateUnchanged := by
  refine ⟨?_, fun s pc => (stepOutcome_eq_overrun_iff_step s pc).trans (step_eq_overrun_iff s pc)⟩
  rintro s (⟨_, h⟩ | ⟨_, h⟩) <;> exact hostStep_of_outcome h

/-- Settles O54, by the outcome of the step. -/
theorem runLoopEnds : Obligations.RunLoopEnds := by
  refine ⟨fun s hrun => ⟨tick_of_stop hrun, fun hstop => ?_⟩, fun s hrun => ?_, fun _ => rfl⟩
  · exact ⟨fun _ => tick_of_outcome hrun hstop, fun _ _ _ => tick_of_outcome hrun hstop,
      fun _ => tick_of_outcome hrun hstop, fun _ => tick_of_outcome hrun hstop,
      fun t h => (tick_of_outcome hrun hstop h).trans (afterOutcome_completed_of_running hrun t)⟩
  · exact ⟨fun t h => (hostStep_of_outcome h).trans (afterOutcome_completed_of_not_running hrun t),
      fun _ => hostStep_of_outcome, fun _ _ _ => hostStep_of_outcome⟩

/-- Settles O55: each command is the record update of its own fields. -/
theorem hostCommandsSetTheirOwnState : Obligations.HostCommandsSetTheirOwnState :=
  fun _ _ _ => ⟨rfl, rfl, rfl, rfl⟩

end Sys2Proof.Machine
end
